-- ==== Sys2Proof/Word.lean ====
section
/-! DEFINITION. The one word type of the machine: the byte. -/

namespace Sys2Proof

/-- A byte: 8 bits, bit 0 least significant, always unsigned (00_scope.md R7). -/
abbrev Byte := BitVec 8

end Sys2Proof
end

