-- ==== Sys2Proof/Syntax.lean ====
section
/-! DEFINITION. The instructions of the ISA `LS-8/6` (00_scope.md R2), one constructor per row of the opcode
table, and the names that the encoding tables use. -/

namespace Sys2Proof

/-- One instruction with its operand bytes. A register operand is the WHOLE operand byte, unmasked: an index
above 7 is an instruction too, which faults when it runs (30_encoding.md R62, R69; 10_state.md R13). -/
inductive Instr where
  /-- `LDI Rr,imm` (41_load_print_halt.md R100). -/
  | ldi (r imm : Byte)
  /-- `PRN Rr` (41_load_print_halt.md R101). -/
  | prn (r : Byte)
  /-- `HLT` (41_load_print_halt.md R102). -/
  | hlt
  /-- `MUL Ra,Rb` (42_alu.md R125). -/
  | mul (a b : Byte)
  /-- `PUSH Rr` (43_stack.md R146). -/
  | push (r : Byte)
  /-- `POP Rr` (43_stack.md R147). -/
  | pop (r : Byte)
deriving DecidableEq, Repr

/-- The six entries of the closed opcode map (30_encoding.md R64). -/
inductive Opcode where
  | ldi | prn | hlt | mul | push | pop
deriving DecidableEq, Repr

/-- The four formats (30_encoding.md R61). -/
inductive Format where
  /-- opcode only -/
  | z
  /-- one register index -/
  | r
  /-- a register index and an immediate -/
  | ri
  /-- two register indices -/
  | rr
deriving DecidableEq, Repr

/-- The opcode of an instruction. -/
def Instr.opcode : Instr → Opcode
  | .ldi _ _ => .ldi
  | .prn _ => .prn
  | .hlt => .hlt
  | .mul _ _ => .mul
  | .push _ => .push
  | .pop _ => .pop

/-- The register-index operand bytes, in operand order (30_encoding.md R61; the order of R85 (4)). -/
def Instr.regOperands : Instr → List Byte
  | .ldi r _ => [r]
  | .prn r => [r]
  | .hlt => []
  | .mul a b => [a, b]
  | .push r => [r]
  | .pop r => [r]

end Sys2Proof
end

