-- ==== Sys2Proof/WellFormed.lean ====
section
/-! DEFINITION. Well-formed instructions: every register operand names a register. The machine also runs
instructions that are not well-formed: they raise `OutOfBounds` (10_state.md R13). -/

namespace Sys2Proof

/-- A register index is valid iff it is at most 7 (10_state.md R13). -/
def validReg (i : Byte) : Bool := decide (i.toNat ≤ 7)

/-- Every register operand of the instruction is valid. Immediates are any byte (30_encoding.md R63). -/
def Instr.wellFormed (i : Instr) : Bool := i.regOperands.all validReg

end Sys2Proof
end

