-- ==== Sys2Proof/Decode.lean ====
section
/-! DEFINITION. The opcode map, the decoder (total, rejecting by name) and, after it, the encoder
(30_encoding.md). -/

namespace Sys2Proof

/-- The opcode byte of each entry (30_encoding.md R64). -/
def Opcode.byte : Opcode → Byte
  | .ldi  => 0b10000010
  | .prn  => 0b01000111
  | .hlt  => 0b00000001
  | .mul  => 0b10100010
  | .push => 0b01000101
  | .pop  => 0b01000110

/-- The format column of 30_encoding.md R64. -/
def Opcode.format : Opcode → Format
  | .ldi => .ri
  | .prn => .r
  | .hlt => .z
  | .mul => .rr
  | .push => .r
  | .pop => .r

/-- The length in bytes of each format (30_encoding.md R61). -/
def Format.width : Format → Nat
  | .z => 1
  | .r => 2
  | .ri => 3
  | .rr => 3

/-- The width column of 30_encoding.md R64: the bytes an instruction occupies. -/
def Opcode.width (o : Opcode) : Nat := o.format.width

/-- The pc-advance column of 30_encoding.md R64: HLT occupies one byte and advances by 0 (90_conflicts.md C3). -/
def Opcode.advance : Opcode → Nat
  | .ldi => 3
  | .prn => 2
  | .hlt => 0
  | .mul => 3
  | .push => 2
  | .pop => 2

/-- Lookup by the exact opcode byte, all 8 bits; every other byte has no entry (30_encoding.md R64, R66). -/
def Opcode.ofByte? (b : Byte) : Option Opcode :=
  if b = Opcode.byte .ldi then some .ldi
  else if b = Opcode.byte .prn then some .prn
  else if b = Opcode.byte .hlt then some .hlt
  else if b = Opcode.byte .mul then some .mul
  else if b = Opcode.byte .push then some .push
  else if b = Opcode.byte .pop then some .pop
  else none

/-- Decode over any byte source: `read k` is the byte at offset `k` from the opcode byte, and may fail.
Byte 0 is read and looked up first, then the operand bytes the format has, in ascending order
(40_execution_cycle.md R82, R85 (1) to (3)). Both the decoder of byte lists and the machine's fetch are this
function, so they cannot differ. -/
def decodeWith {ε : Type} (read : Nat → Except ε Byte) (unknown : Byte → ε) : Except ε Instr := do
  let op ← read 0
  match Opcode.ofByte? op with
  | none => .error (unknown op)
  | some .ldi => do
    let r ← read 1
    let imm ← read 2
    .ok (.ldi r imm)
  | some .prn => do
    let r ← read 1
    .ok (.prn r)
  | some .hlt => .ok .hlt
  | some .mul => do
    let a ← read 1
    let b ← read 2
    .ok (.mul a b)
  | some .push => do
    let r ← read 1
    .ok (.push r)
  | some .pop => do
    let r ← read 1
    .ok (.pop r)

/-- Why a list of bytes is no instruction. -/
inductive DecodeError where
  /-- the opcode byte has no entry in the closed map (30_encoding.md R66) -/
  | unknownOpcode (op : Byte)
  /-- the list ends before the byte at this offset, which the instruction needs -/
  | truncated (offset : Nat)
deriving DecidableEq, Repr

/-- The byte at an offset of a list. -/
def readList (bs : List Byte) (k : Nat) : Except DecodeError Byte :=
  match bs[k]? with
  | some b => .ok b
  | none => .error (.truncated k)

/-- The decoder: the instruction at the head of a list of bytes, and the bytes after it. -/
def decode (bs : List Byte) : Except DecodeError (Instr × List Byte) :=
  match decodeWith (readList bs) .unknownOpcode with
  | .ok i => .ok (i, bs.drop i.opcode.width)
  | .error e => .error e

/-- The encoder: the bytes of an instruction, opcode byte first (30_encoding.md R69). -/
def encode (i : Instr) : List Byte :=
  match i with
  | .ldi r imm => [0x82, r, imm]
  | .prn r => [0x47, r]
  | .hlt => [0x01]
  | .mul a b => [0xA2, a, b]
  | .push r => [0x45, r]
  | .pop r => [0x46, r]

/-- The bytes of a word numbered as the opcode table numbers bits: byte `k` is bits `8k+7` to `8k`. Bits at
`nbits` and above are 0, and there are three bytes, the longest instruction. -/
def wordBytes (nbits w : Nat) : List Byte :=
  let v := w % 2 ^ nbits
  [BitVec.ofNat 8 v, BitVec.ofNat 8 (v / 2 ^ 8), BitVec.ofNat 8 (v / 2 ^ 16)]

/-- The instruction the decoder reads from an opcode-table word of `nbits` bits. -/
def decodeTableWord (nbits w : Nat) : Option Instr :=
  match decode (wordBytes nbits w) with
  | .ok (i, _) => some i
  | .error _ => none

end Sys2Proof
end

