-- ==== Sys2Proof/Config.lean ====
section
/-! DEFINITION. The implementation parameters of 00_scope.md R6 with the values this hardware takes.
There is no free value: no rule leaves a result open (93_implementation_defined.md section 1). -/

namespace Sys2Proof.Config

/-- `MEM_SIZE`: memory cells, addresses 0..255 (R6, R17). -/
def memSize : Nat := 256

/-- `NREGS`: general registers, indices 0..7 (R6, R11). -/
def numRegs : Nat := 8

/-- `SP_INDEX`: the register used as stack pointer (R6, R12). -/
def spIndex : Fin 8 := 7

/-- `SP_RESET`: the stack pointer at construction (R6, R31). -/
def spReset : Byte := 0xF4

/-- `SP_POP_LIMIT`: the largest stack-pointer value a POP may produce; this hardware takes 0xF5 and the
legal values are 0xF4 to 0xFF (R6, R144; log entry 6). -/
def spPopLimit : Nat := 0xF5

/-- `SP_PUSH_FLOOR`: the smallest stack-pointer value a PUSH may produce (R6, R143). -/
def spPushFloor : Nat := 0

/-- `PC_RESET` (R6, R31). -/
def pcReset : Nat := 0

/-- `LOAD_BASE`: the address of the first loaded byte (R6, R33). -/
def loadBase : Nat := 0

/-- What a memory cell holds at reset, and so what an unlisted address reads as (R31: zeroed memory). -/
def memReset : Byte := 0

end Sys2Proof.Config
end

