-- ==== Sys2Proof/Machine/State.lean ====
section
/-! DEFINITION. The machine's state as plain data (10_state.md), the reasons a step can stop, and the state
after reset. -/

namespace Sys2Proof.Machine

/-- The fault kinds of 10_state.md R25. -/
inductive FaultKind where
  | none
  | outOfBounds
  | unknownInstruction
  | unsupportedAluOperation
  | stackOverflow
  | stackUnderflow
deriving DecidableEq, Repr

/-- `fault.space` of 10_state.md R24. -/
inductive FaultSpace where
  | none
  | memory
  | register
deriving DecidableEq, Repr

/-- The fault status register (10_state.md R24). `opcode` is `none` when its valid bit is 0. -/
structure FaultStatus where
  kind   : FaultKind
  pc     : Nat
  opcode : Option Byte
  space  : FaultSpace
  detail : Nat
deriving DecidableEq, Repr

/-- What `raise` is given: a fault kind with its space and detail (00_scope.md R8; 10_state.md R25). -/
inductive Cause where
  /-- an access in a space at an address or index outside its range -/
  | outOfBounds (space : FaultSpace) (detail : Nat)
  /-- an opcode byte with no entry -/
  | unknownInstruction (op : Byte)
  /-- an ALU tag outside ADD and MUL -/
  | unsupportedAluOperation (tag : BitVec 2)
  /-- a push that would move SP below 0; the SP value -/
  | stackOverflow (sp : Byte)
  /-- a pop that would move SP above the limit; the SP value -/
  | stackUnderflow (sp : Byte)
deriving DecidableEq, Repr

/-- The host-interface lifecycle (10_state.md R28). -/
inductive Phase where
  | fresh
  | loaded
  | started
deriving DecidableEq, Repr

/-- Memory in canonical form: (address, byte) pairs, addresses strictly rising, no entry equal to what an
unlisted address reads as. The operations are in Machine/Ops.lean. -/
abbrev Memory := List Host.Cell

/-- The complete state of the engine (10_state.md R10). -/
structure State where
  /-- flat_byte_addressable_memory_256b (R17) -/
  mem     : Memory
  /-- register_file_8x8; x[7] is SP (R11, R12) -/
  x       : Vector Byte 8
  /-- program counter: a natural number that never wraps (R20, R21) -/
  pc      : Nat
  /-- running flag (R23) -/
  running : Bool
  /-- fault status register (R24) -/
  fault   : FaultStatus
  /-- PRN output event stream, oldest first (R27) -/
  out     : List Byte
  /-- host-interface phase (R28) -/
  phase   : Phase
deriving DecidableEq, Repr

/-- Why `step` answers no next state. An instruction never answers one of these: every fault of the spec is a
NEXT state with the fault status written (60_exceptions.md R163; log entry 1). -/
inductive Fault where
  /-- raised by `step` when the dispatcher state is Halted: there is no step until reset
  (40_execution_cycle.md R81). Safe: the machine stops where the spec says no step exists. -/
  | halted
  /-- raised by `step` when the dispatcher state is Faulted: there is no step until reset
  (40_execution_cycle.md R81; 60_exceptions.md R168). Safe, as `halted`. -/
  | faulted
deriving DecidableEq, Repr

/-- Why an instruction has no meaning in the model. No instruction of this model answers one. -/
inductive Refusal where
  /-- raised only by an arm of `exec` whose instruction has no meaning yet; no arm is so. Safe. -/
  | notModelled (mnemonic : String)
deriving DecidableEq, Repr

/-- The fault status at reset: kind 0, pc 0, opcode invalid, space 0, detail 0 (10_state.md R31). -/
def FaultStatus.clear : FaultStatus :=
  { kind := .none, pc := 0, opcode := none, space := .none, detail := 0 }

/-- The machine right after reset (10_state.md R31; 70_reset_and_hazards.md R190): every value is the spec's. -/
def State.reset : State where
  mem     := []
  x       := #v[0, 0, 0, 0, 0, 0, 0, Config.spReset]
  pc      := Config.pcReset
  running := true
  fault   := FaultStatus.clear
  out     := []
  phase   := .fresh

end Sys2Proof.Machine
end

