-- ==== Sys2Proof/Machine/Ops.lean ====
section
/-! DEFINITION. The named operations over memory, registers, the program counter, the output and the fault
status. Everything that touches State goes through them. -/

namespace Sys2Proof.Machine

/-- `wrap8(v) = v mod 256` (00_scope.md R7). -/
def wrap8 (v : Nat) : Byte := BitVec.ofNat 8 v

/-! ### Memory (10_state.md R17, R18) -/

/-- The cell at an address; an address with no entry reads as the reset contents. -/
def Memory.read : Memory → Nat → Byte
  | [], _ => Config.memReset
  | (b, v) :: rest, a => if b = a then v else Memory.read rest a

/-- Remove whatever is listed at an address. -/
def Memory.erase (m : Memory) (a : Nat) : Memory := m.filter (fun c => c.1 != a)

/-- List a byte at an address before the first entry with a greater address. -/
def Memory.insert : Memory → Nat → Byte → Memory
  | [], a, v => [(a, v)]
  | (b, w) :: rest, a, v => if a < b then (a, v) :: (b, w) :: rest else (b, w) :: Memory.insert rest a v

/-- Write one cell, keeping the canonical form: writing what an unlisted address reads as removes the entry. -/
def Memory.write (m : Memory) (a : Nat) (v : Byte) : Memory :=
  if v = Config.memReset then m.erase a else (m.erase a).insert a v

/-- The canonical form: addresses strictly rising and below the memory's size, no entry equal to what an unlisted
address reads as. -/
abbrev Memory.wf (m : Memory) : Prop :=
  m.Pairwise (fun c d => c.1 < d.1) ∧ ∀ c ∈ m, c.1 < Config.memSize ∧ c.2 ≠ Config.memReset

/-- `MemRead(addr, 1)` (00_scope.md R8; 10_state.md R18): no wrap-around of the address. -/
def memRead (s : State) (a : Nat) : Except Cause Byte :=
  if a < Config.memSize then .ok (s.mem.read a) else .error (.outOfBounds .memory a)

/-- `MemWrite(addr, 1, v)`: stores `v mod 256` under the same bound (00_scope.md R8; 10_state.md R18). -/
def memWrite (a v : Nat) (s : State) : Except Cause State :=
  if a < Config.memSize then .ok { s with mem := s.mem.write a (wrap8 v) } else .error (.outOfBounds .memory a)

/-! ### Registers (10_state.md R11 to R16) -/

/-- `x[i]`. -/
def State.reg (s : State) (i : Fin 8) : Byte := s.x[i]

/-- `x[i] <- v mod 256` (10_state.md R14). -/
def State.setReg (s : State) (i : Fin 8) (v : Nat) : State := { s with x := s.x.set i (wrap8 v) }

/-- The stack pointer is register 7 (10_state.md R12). -/
def State.sp (s : State) : Byte := s.reg Config.spIndex

/-- `SP <- v`. -/
def State.setSp (s : State) (v : Nat) : State := s.setReg Config.spIndex v

/-! ### Output, running flag, phase -/

/-- `emit(v)`: append a byte to the PRN output event stream (10_state.md R27). -/
def State.emit (s : State) (v : Byte) : State := { s with out := s.out ++ [v] }

/-- `running <- false` (10_state.md R23). -/
def State.stop (s : State) : State := { s with running := false }

/-- The first step of a run moves the phase to Started (10_state.md R28; 60_exceptions.md R172; log entry 2). -/
def State.start (s : State) : State := { s with phase := .started }

/-! ### program_counter_sequencer (40_execution_cycle.md R84, R87) -/

/-- The next pc: the override when a handler drives it, else the advance; never reduced modulo 256 (R84, R87). -/
def nextPc (override : Option Nat) (pc adv : Nat) : Nat := override.getD (pc + adv)

/-- The uniform advance after dispatch. No instruction drives the override (R87). -/
def State.advance (s : State) (op : Opcode) : State := { s with pc := nextPc none s.pc op.advance }

/-! ### Taking a fault (60_exceptions.md R163) -/

/-- The kind of a cause (10_state.md R25). -/
def Cause.kind : Cause → FaultKind
  | .outOfBounds _ _ => .outOfBounds
  | .unknownInstruction _ => .unknownInstruction
  | .unsupportedAluOperation _ => .unsupportedAluOperation
  | .stackOverflow _ => .stackOverflow
  | .stackUnderflow _ => .stackUnderflow

/-- The space of a cause: only `OutOfBounds` has one (10_state.md R24). -/
def Cause.space : Cause → FaultSpace
  | .outOfBounds sp _ => sp
  | .unknownInstruction _ => .none
  | .unsupportedAluOperation _ => .none
  | .stackOverflow _ => .none
  | .stackUnderflow _ => .none

/-- The detail of a cause (10_state.md R25). -/
def Cause.detail : Cause → Nat
  | .outOfBounds _ d => d
  | .unknownInstruction op => op.toNat
  | .unsupportedAluOperation tag => tag.toNat
  | .stackOverflow sp => sp.toNat
  | .stackUnderflow sp => sp.toNat

/-- Taking a fault: the fault status is written and nothing else changes; pc stays at the faulting instruction
(60_exceptions.md R163, R164). There is no return from a fault but reset (R168), so no operation beside this one
leaves the Faulted state. -/
def State.raise (s : State) (op : Option Byte) (c : Cause) : State :=
  { s with fault := { kind := c.kind, pc := s.pc, opcode := op, space := c.space, detail := c.detail } }

/-- How an instruction ends: its body completed and the sequencer advances the pc (40_execution_cycle.md R84), or its
body raised a cause, and then the state before the body takes the fault, so no partial effect is left (00_scope.md R9;
60_exceptions.md R163). -/
def retire (op : Opcode) (s : State) (body : Except Cause State) : Host.Outcome State Fault Refusal :=
  match body with
  | .ok t => .next (t.advance op)
  | .error c => .next (s.raise (some op.byte) c)

end Sys2Proof.Machine
end

