-- ==== Sys2Proof/Machine/Operands.lean ====
section
/-! DEFINITION. The operand forms: a register index is a whole byte checked against 7; an immediate is a whole byte
used as it is (30_encoding.md R62). -/

namespace Sys2Proof.Machine

/-- `CheckReg(i)`: the register an operand byte names, or `OutOfBounds(register, i)`; no masking
(00_scope.md R8; 10_state.md R13). -/
def checkReg (i : Byte) : Except Cause (Fin 8) :=
  if h : i.toNat < Config.numRegs then .ok ⟨i.toNat, h⟩ else .error (.outOfBounds .register i.toNat)

/-- `RegRead(i)` of the register file's interface (10_state.md R16). -/
def regRead (s : State) (i : Byte) : Except Cause Byte := do
  let r ← checkReg i
  .ok (s.reg r)

/-- `RegWrite(i, v)` of the register file's interface: stores `v mod 256` (10_state.md R14, R16). -/
def regWrite (i : Byte) (v : Nat) (s : State) : Except Cause State := do
  let r ← checkReg i
  .ok (s.setReg r v)

/-- An 8-bit immediate: unsigned, no extension, scaling or shift (30_encoding.md R62). -/
def immediate (imm : Byte) : Nat := imm.toNat

end Sys2Proof.Machine
end

