-- ==== Sys2Proof/Machine/Alu.lean ====
section
/-! DEFINITION. alu_arithmetic_logic and MUL (42_alu.md). -/

namespace Sys2Proof.Machine

/-- The supported ALU operations (42_alu.md R120). ADD has no opcode (R124). -/
inductive AluOp where
  | add
  | mul
deriving DecidableEq, Repr

/-- The 2-bit operation tag (42_alu.md R121). -/
def AluOp.tag : AluOp → BitVec 2
  | .add => 0b00
  | .mul => 0b01

/-- The operation of a tag; `10` and `11` are unsupported (42_alu.md R121, R123). -/
def AluOp.ofTag (tag : BitVec 2) : Except Cause AluOp :=
  if tag = AluOp.tag .add then .ok .add
  else if tag = AluOp.tag .mul then .ok .mul
  else .error (.unsupportedAluOperation tag)

/-- The exact result over unbounded naturals (42_alu.md R122). -/
def AluOp.exact : AluOp → Nat → Nat → Nat
  | .add, va, vb => va + vb
  | .mul, va, vb => va * vb

/-- `AluResult(op, va, vb)`: the low 8 bits of the exact unsigned result (42_alu.md R122, R126). -/
def aluResult (op : AluOp) (va vb : Byte) : Byte := wrap8 (op.exact va.toNat vb.toNat)

/-- The ALU's contract `apply(op, reg_a, reg_b)`: both registers are read before register a is written; no memory and no
pc is touched (42_alu.md R120, R123, R127). An unsupported tag is refused before the indices are looked at
(log entry 4); the indices are checked in operand order (40_execution_cycle.md R85). -/
def aluApply (tag : BitVec 2) (a b : Byte) (s : State) : Except Cause State := do
  let op ← AluOp.ofTag tag
  let ra ← checkReg a
  let rb ← checkReg b
  .ok (s.setReg ra (aluResult op (s.reg ra) (s.reg rb)).toNat)

/-- `MUL Ra,Rb`: x[a] <- x[a] * x[b] mod 256 (42_alu.md R125); the dispatcher always passes the tag MUL (R123). -/
def execMul (a b : Byte) (s : State) : Host.Outcome State Fault Refusal :=
  retire .mul s (aluApply (AluOp.tag .mul) a b s)

end Sys2Proof.Machine
end

