-- ==== Sys2Proof/Machine/LoadPrintHalt.lean ====
section
/-! DEFINITION. LDI, PRN and HLT (41_load_print_halt.md). -/

namespace Sys2Proof.Machine

/-- `LDI Rr,imm`: x[r] <- imm (41_load_print_halt.md R100). -/
def execLdi (r imm : Byte) (s : State) : Host.Outcome State Fault Refusal :=
  retire .ldi s (regWrite r (immediate imm) s)

/-- `PRN Rr`: emit x[r] (41_load_print_halt.md R101). -/
def execPrn (r : Byte) (s : State) : Host.Outcome State Fault Refusal :=
  retire .prn s (do
    let v ← regRead s r
    .ok (s.emit v))

/-- `HLT`: running <- false; the pc advance is 0 (41_load_print_halt.md R102). -/
def execHlt (s : State) : Host.Outcome State Fault Refusal :=
  retire .hlt s (.ok s.stop)

end Sys2Proof.Machine
end

