-- ==== Sys2Proof/Machine/Stack.lean ====
section
/-! DEFINITION. stack_pointer_control, PUSH and POP (43_stack.md). -/

namespace Sys2Proof.Machine

/-- The address a push writes: the decremented stack pointer (43_stack.md R141). -/
def pushAddr (s : State) : Nat := s.sp.toNat - 1

/-- The address a pop reads: the stack pointer (43_stack.md R142). -/
def popAddr (s : State) : Nat := s.sp.toNat

/-- `Push(v)`: the overflow check (SP - 1 below the floor 0, so SP = 0), SP <- SP - 1, then the write at the new SP (43_stack.md R141, R143). -/
def pushByte (v : Byte) (s : State) : Except Cause State :=
  if s.sp.toNat ≤ Config.spPushFloor then .error (.stackOverflow s.sp)
  else memWrite (pushAddr s) v.toNat (s.setSp (pushAddr s))

/-- `Pop()` with the bound as an argument: the underflow check, the read at SP, then SP <- SP + 1
(43_stack.md R142, R144). Answers the byte and the state after. -/
def popByte (limit : Nat) (s : State) : Except Cause (Byte × State) :=
  if limit < s.sp.toNat + 1 then .error (.stackUnderflow s.sp)
  else do
    let v ← memRead s (popAddr s)
    .ok (v, s.setSp (s.sp.toNat + 1))

/-- The `SP_POP_LIMIT` this hardware takes (43_stack.md R144; log entry 6). -/
def popLimit : Nat := Config.spPopLimit

/-- `PUSH Rr`: the value is read before SP changes, so `PUSH R7` pushes the old SP (43_stack.md R146). -/
def execPush (r : Byte) (s : State) : Host.Outcome State Fault Refusal :=
  retire .push s (do
    let v ← regRead s r
    pushByte v s)

/-- POP under a given limit: x[r] is written after SP, so `POP R7` leaves the popped byte in SP (43_stack.md R147). -/
def popInto (limit : Nat) (r : Byte) (s : State) : Except Cause State := do
  let rf ← checkReg r
  let (v, t) ← popByte limit s
  .ok (t.setReg rf v.toNat)

/-- `POP Rr` (43_stack.md R147). -/
def execPop (r : Byte) (s : State) : Host.Outcome State Fault Refusal :=
  retire .pop s (popInto popLimit r s)

end Sys2Proof.Machine
end

