-- ==== Sys2Proof/Machine/Flags.lean ====
section
/-! DEFINITION. The hardware has no flags register and no condition codes (10_state.md R29), so no flag computation is
written here. Its only flags are the running flag and the fault status, and this file says what they make of the
dispatcher, and the code numbers of the fault status. -/

namespace Sys2Proof.Machine

/-- The dispatcher states (10_state.md R26; 40_execution_cycle.md R80). -/
inductive DispatcherState where
  | running
  | halted
  | faulted
deriving DecidableEq, Repr

/-- The dispatcher state, derived from the running flag and the fault status (10_state.md R26). `halted` and `faulted`
are never both the case in a reachable state; the function then answers `faulted`, and no step exists either way. -/
def State.dispatcher (s : State) : DispatcherState :=
  if s.fault.kind ≠ .none then .faulted
  else if s.running then .running
  else .halted

/-- The 3-bit code of `fault.kind` (10_state.md R25). -/
def FaultKind.code : FaultKind → BitVec 3
  | .none => 0
  | .outOfBounds => 1
  | .unknownInstruction => 2
  | .unsupportedAluOperation => 3
  | .stackOverflow => 4
  | .stackUnderflow => 5

/-- The 2-bit code of `fault.space` (10_state.md R24). -/
def FaultSpace.code : FaultSpace → BitVec 2
  | .none => 0
  | .memory => 1
  | .register => 2

end Sys2Proof.Machine
end

