-- ==== Sys2Proof/Machine/Cycle.lean ====
section
/-! DEFINITION. One cycle of the engine: fetch, decode, dispatch (40_execution_cycle.md). -/

namespace Sys2Proof.Machine

/-- The opcode byte at pc, or nothing when the opcode fetch fails: what `fault.opcode` records for a fault of the
fetch or of decode (10_state.md R24; 40_execution_cycle.md R83, R86). -/
def State.opcodeByte? (s : State) : Option Byte :=
  match memRead s s.pc with
  | .ok b => some b
  | .error _ => none

/-- Opcode fetch, decode and operand fetch, in that order, the operand bytes at pc+1 and pc+2 in ascending order; the
first access above 255 raises `OutOfBounds` (40_execution_cycle.md R83, R85 (1) to (3), R86). -/
def fetch (s : State) : Except Cause Instr :=
  decodeWith (fun k => memRead s (s.pc + k)) .unknownInstruction

/-- Fetch an instruction and run it, or take the fault of the fetch. -/
def runFetched (s : State) : Host.Outcome State Fault Refusal :=
  match fetch s with
  | .ok i => exec i s
  | .error c => .next (s.raise s.opcodeByte? c)

/-- One step, possible only in Running; in Halted and Faulted no step exists (40_execution_cycle.md R81, R82;
log entries 1 and 2). -/
def cycle (s : State) : Host.Outcome State Fault Refusal :=
  match s.dispatcher with
  | .halted => .fault .halted
  | .faulted => .fault .faulted
  | .running => runFetched s.start

/-- Store bytes at consecutive ascending addresses; a byte whose address would exceed 255 is not stored
(10_state.md R18, R33). -/
def Memory.store : Memory → Nat → List Byte → Memory
  | m, _, [] => m
  | m, a, b :: bs => Memory.store (if a < Config.memSize then m.write a b else m) (a + 1) bs

/-- The state with an instruction's bytes stored where the next fetch reads them. -/
def placeWord (s : State) (nbits w : Nat) : State :=
  { s with mem := Memory.store s.mem s.pc (wordBytes nbits w) }

end Sys2Proof.Machine
end

