-- ==== Sys2Proof/Machine/Step.lean ====
section
/-! DEFINITION. The step of the machine, and an instruction placed where the step fetches. -/

namespace Sys2Proof.Machine

/-- One step of the engine (40_execution_cycle.md R82). -/
def step (s : State) : Host.Outcome State Fault Refusal := cycle s

/-- The state with the instruction of an opcode-table word stored at pc; nothing else changes (log entry 5). -/
def State.withFetchWord (s : State) (nbits w : Nat) : State := placeWord s nbits w

end Sys2Proof.Machine
end

