-- ==== Sys2Proof/Machine/Entry.lean ====
section
/-! DEFINITION. The host interface: reset, load, run, the debug read port and the status ports
(60_exceptions.md R172 to R178; 40_execution_cycle.md R88). -/

namespace Sys2Proof.Machine

/-- `reset`: the state of 10_state.md R31 from any prior state (60_exceptions.md R172). -/
def hostReset (_ : State) : State := State.reset

/-- `load_result` (60_exceptions.md R172, R178). -/
inductive LoadResult where
  | accepted
  /-- refused: the image is longer than memory; the offending address -/
  | outOfBounds (address : Nat)
  /-- refused: the machine is not Fresh ("loaded once") -/
  | alreadyLoaded
deriving DecidableEq, Repr

/-- `load(bytes)`: all or nothing; a refused load changes no state, the fault status among it (60_exceptions.md R172;
10_state.md R33). The length is looked at before the phase (log entry 3). -/
def load (bytes : List Nat) (s : State) : LoadResult × State :=
  if Config.memSize < bytes.length then (.outOfBounds Config.memSize, s)
  else if s.phase ≠ .fresh then (.alreadyLoaded, s)
  else (.accepted, { s with mem := Memory.store s.mem Config.loadBase (bytes.map wrap8), phase := .loaded })

/-- `run_result` (60_exceptions.md R178), with the fault status in Faulted (40_execution_cycle.md R88). -/
inductive RunResult where
  | halted
  | faulted (status : FaultStatus)
  /-- the model's step bound ran out; 129 steps always suffice (40_execution_cycle.md R89; log entry 7) -/
  | unfinished
deriving DecidableEq, Repr

/-- At most `n` steps, while the state is Running. -/
def runLoop : Nat → State → State
  | 0, s => s
  | n + 1, s =>
    match step s with
    | .next t => runLoop n t
    | .fault _ => s
    | .refused _ => s

/-- The number of steps no run exceeds (40_execution_cycle.md R89). -/
def runBound : Nat := 129

/-- What `run()` reports about the state it ends in. -/
def runResult (s : State) : RunResult :=
  match s.dispatcher with
  | .halted => .halted
  | .faulted => .faulted s.fault
  | .running => .unfinished

/-- `run()`: phase Started, then steps while Running (40_execution_cycle.md R88; 60_exceptions.md R172). -/
def run (s : State) : RunResult × State :=
  let t := runLoop runBound s.start
  (runResult t, t)

/-- What the debug read port can select (60_exceptions.md R176). -/
inductive DebugSel where
  | pc
  | running
  | faultKind
  | faultPc
  | faultOpcode
  | faultSpace
  | faultDetail
  | reg (i : Fin 8)
  | mem (a : Nat)
deriving DecidableEq, Repr

/-- What the debug read port answers: the 9-bit `debug_data` (60_exceptions.md R178), or the refusal of an address. -/
inductive DebugData where
  | value (v : BitVec 9)
  /-- the memory address was above 255; returned to the host only -/
  | outOfBounds (address : Nat)
deriving DecidableEq, Repr

/-- `fault.opcode` on nine bits: the valid bit above the opcode byte (10_state.md R24; 60_exceptions.md R178); an invalid
opcode shows the byte 0 (log entries 8 and 9). -/
def opcodeField : Option Byte → BitVec 9
  | none => 0
  | some b => BitVec.ofNat 9 (2 ^ 8 + b.toNat)

/-- A debug read; it only answers a value, so it has no effect on the state (60_exceptions.md R176). The value is on the
nine bits of `debug_data`, narrower fields in the low bits (60_exceptions.md R178; log entry 9). -/
def debugRead (sel : DebugSel) (s : State) : DebugData :=
  match sel with
  | .pc => .value (BitVec.ofNat 9 s.pc)
  | .running => .value (BitVec.ofNat 9 s.running.toNat)
  | .faultKind => .value (s.fault.kind.code.setWidth 9)
  | .faultPc => .value (BitVec.ofNat 9 s.fault.pc)
  | .faultOpcode => .value (opcodeField s.fault.opcode)
  | .faultSpace => .value (s.fault.space.code.setWidth 9)
  | .faultDetail => .value (BitVec.ofNat 9 s.fault.detail)
  | .reg i => .value ((s.reg i).setWidth 9)
  | .mem a =>
    match memRead s a with
    | .ok b => .value (b.setWidth 9)
    | .error _ => .outOfBounds a

/-- The `status` port: `running` 1 bit and `fault.kind` 3 bits (60_exceptions.md R178). -/
def statusPort (s : State) : Bool × BitVec 3 := (s.running, s.fault.kind.code)

/-- The `fault_info` port (60_exceptions.md R178). -/
structure FaultInfo where
  pc          : BitVec 9
  opcodeValid : Bool
  opcode      : Byte
  space       : BitVec 2
  detail      : BitVec 9
deriving DecidableEq, Repr

/-- The value on the `fault_info` port; an invalid opcode shows the byte 0 (log entry 8). -/
def faultInfoPort (s : State) : FaultInfo where
  pc          := BitVec.ofNat 9 s.fault.pc
  opcodeValid := s.fault.opcode.isSome
  opcode      := s.fault.opcode.getD 0
  space       := s.fault.space.code
  detail      := BitVec.ofNat 9 s.fault.detail

/-- The events on `prn_event` between two states of a run: what `out` gained (60_exceptions.md R171, R178). -/
def prnEvents (s t : State) : List Byte := t.out.drop s.out.length

/-- Everything the host can do to the machine (60_exceptions.md R173). -/
inductive HostAction where
  | reset
  | load (bytes : List Nat)
  | run
  | debugRead (sel : DebugSel)
deriving DecidableEq, Repr

/-- The state after a host action (60_exceptions.md R172, R173, R176). -/
def hostAct (a : HostAction) (s : State) : State :=
  match a with
  | .reset => hostReset s
  | .load bytes => (load bytes s).2
  | .run => (run s).2
  | .debugRead _ => s

end Sys2Proof.Machine
end

