-- ==== Sys2Proof/Safety.lean ====
section
/-! DEFINITION. The invariant of the machine and what counts as a safe run, in the terms the statements use. -/

namespace Sys2Proof

open Machine

/-- What a fault record of each kind holds (10_state.md R24, R25; 60_exceptions.md R160): the only address out of range
that is ever presented is 256 (10_state.md R21), a register index is 8..255, an unknown opcode has no entry, no
instruction raises `UnsupportedAluOperation` (42_alu.md R123), and the stack faults record SP. -/
def faultDetailOk (s : State) : Bool :=
  match s.fault.kind with
  | .none => s.fault == FaultStatus.clear
  | .outOfBounds =>
    (s.fault.space == .memory && s.fault.detail == 256)
      || (s.fault.space == .register && decide (8 ≤ s.fault.detail) && decide (s.fault.detail ≤ 255))
  | .unknownInstruction =>
    s.fault.space == .none
      && (match s.fault.opcode with
          | some b => Opcode.ofByte? b == none && s.fault.detail == b.toNat
          | none => false)
  | .unsupportedAluOperation => false
  | .stackOverflow => s.fault.space == .none && s.fault.detail == 0 && s.sp == 0
  | .stackUnderflow =>
    s.fault.space == .none && s.fault.detail == s.sp.toNat && decide (popLimit < s.fault.detail + 1)

/-- The invariant of the machine: what holds at reset and what every step and every host action keep. -/
structure Inv (s : State) : Prop where
  /-- memory is in its canonical form -/
  mem : s.mem.wf
  /-- the largest pc value is 256 (10_state.md R21) -/
  pc : s.pc ≤ 256
  /-- every PRN moved pc by 2, so at most 128 bytes are ever emitted (40_execution_cycle.md R84, R89) -/
  out : 2 * s.out.length ≤ s.pc
  /-- the fault record is one the spec describes (10_state.md R24, R25) -/
  detail : faultDetailOk s = true
  /-- a faulted machine is not halted, its pc is at the faulting instruction and its record names pc and opcode
  (10_state.md R26; 60_exceptions.md R163) -/
  faulted : s.fault.kind ≠ .none →
    s.running = true ∧ s.fault.pc = s.pc ∧ s.fault.opcode = s.opcodeByte? ∧ s.phase = .started
  /-- a halted machine's pc is at the HLT byte (41_load_print_halt.md R102) -/
  halted : s.running = false → s.opcodeByte? = some (Opcode.byte .hlt) ∧ s.phase = .started
  /-- before the first step only memory and the phase differ from reset (10_state.md R28, R31) -/
  unstarted : s.phase ≠ .started → s = { State.reset with mem := s.mem, phase := s.phase }
  /-- nothing is in memory before a load (10_state.md R31; 60_exceptions.md R172) -/
  fresh : s.phase = .fresh → s.mem = []

/-- A safe state: no fatal error has been recorded (60_exceptions.md R161). -/
def Safe (s : State) : Prop := s.dispatcher ≠ .faulted

/-- What the stack needs for an instruction to complete: a PUSH needs SP above 0, a POP needs SP + 1 within the limit
(43_stack.md R143, R144; 70_reset_and_hazards.md R193). -/
def stackReady (i : Instr) (s : State) : Bool :=
  match i with
  | .ldi _ _ => true
  | .prn _ => true
  | .hlt => true
  | .mul _ _ => true
  | .push _ => s.sp != 0
  | .pop _ => decide (s.sp.toNat + 1 ≤ popLimit)

/-- The operand byte that names a register (30_encoding.md R62). -/
def regByte (r : Fin 8) : Byte := BitVec.ofNat 8 r.val

/-- The bytes of memory from pc up to the last address, 255. -/
def codeAt (s : State) : List Byte := (List.range (256 - s.pc)).map fun k => s.mem.read (s.pc + k)

end Sys2Proof
end

