-- ==== Sys2Proof/Certificates/Slice0/Obligations.lean ====
section
/-! DEFINITION. The statements for the provers, each over the machine, none about a program. -/

open Sys2Proof Sys2Proof.Machine

/-! ### Encoding and decoding (30_encoding.md) -/

/-- R61, R64, R69: the decoder gives back every instruction from its encoding, with every operand at every byte, and
leaves the bytes after it. -/
def Obligations.DecodeGivesBackEncoded : Prop :=
  ∀ (i : Instr) (rest : List Byte), decode (encode i ++ rest) = .ok (i, rest)

/-- R61, R69: whatever decodes is the encoding of the instruction it decodes to, followed by the rest: no byte of an
instruction is dropped and no two encodings mean one instruction. -/
def Obligations.DecodedBytesAreTheEncoding : Prop :=
  ∀ (bs : List Byte) (i : Instr) (rest : List Byte), decode bs = .ok (i, rest) → encode i ++ rest = bs

/-- R64, R66: all 8 bits of the opcode byte select the instruction, and exactly the bytes outside the six entries are
rejected as unknown, whatever bytes follow. -/
def Obligations.UnknownOpcodesAreAllOthers : Prop :=
  ∀ (op : Byte) (rest : List Byte),
    decode (op :: rest) = .error (.unknownOpcode op) ↔
      op ∉ [0b10000010, 0b01000111, 0b00000001, 0b10100010, 0b01000101, 0b01000110]

/-- R60, R64, R67: an instruction's length is a function of its opcode byte alone: with an opcode of the map, a byte list
decodes iff it holds as many bytes as the width column says, and it is cut off exactly there. -/
def Obligations.LengthIsTheOpcodesOwn : Prop :=
  ∀ (o : Opcode) (rest : List Byte),
    (o.width ≤ rest.length + 1 →
      ∃ i, i.opcode = o ∧ decode (o.byte :: rest) = .ok (i, rest.drop (o.width - 1))) ∧
    (rest.length + 1 < o.width → decode (o.byte :: rest) = .error (.truncated (rest.length + 1)))

/-- R64, R69: words written out from the opcode table decode to the instructions they stand for. -/
def Obligations.SampleEncodingsDecode : Prop :=
  decode [0b10000010, 0b00000000, 0b00001000] = .ok (.ldi 0 8, []) ∧
  decode [0b01000111, 0b00000111] = .ok (.prn 7, []) ∧
  decode [0b00000001] = .ok (.hlt, []) ∧
  decode [0b10100010, 0b00000000, 0b00000001] = .ok (.mul 0 1, []) ∧
  decode [0b01000101, 0b00000011] = .ok (.push 3, []) ∧
  decode [0b01000110, 0b11111111] = .ok (.pop 255, [])

/-! ### One step (40_execution_cycle.md) -/

/-- R82: when the bytes at pc decode to an instruction, well-formed or not, the step is exec of it, on the state whose
phase is Started and which is otherwise the same (that the step itself sets the phase is log entry 2). -/
def Obligations.StepRunsTheDecodedInstruction : Prop :=
  ∀ (s : State) (i : Instr) (rest : List Byte),
    s.dispatcher = .running → decode (codeAt s) = .ok (i, rest) →
      step s = exec i { s with phase := .started }

/-- R83: an opcode fetch at pc above 255 raises OutOfBounds (memory, pc) with the opcode invalid, and nothing else of the
machine changes (the phase is Started, log entry 2); a fetch at pc up to 255 always gives the byte there. -/
def Obligations.OpcodeFetchAbove255Faults : Prop :=
  (∀ s : State, s.dispatcher = .running → 255 < s.pc →
    step s = .next { s with
      phase := .started
      fault := { kind := .outOfBounds, pc := s.pc, opcode := none, space := .memory, detail := s.pc } }) ∧
  (∀ s : State, s.pc ≤ 255 → memRead s s.pc = .ok (s.mem.read s.pc))

/-- R86, R163: an opcode byte with no entry raises UnknownInstruction with fault.opcode and fault.detail the byte and
fault.pc the pc, whatever follows it, and nothing else of the machine changes (the phase is Started, R28 as log entry 2 reads
it); and no instruction's handler ever raises that kind. -/
def Obligations.UnknownOpcodeFaults : Prop :=
  (∀ s : State, s.dispatcher = .running → s.pc ≤ 255 →
    s.mem.read s.pc ∉ [0b10000010, 0b01000111, 0b00000001, 0b10100010, 0b01000101, 0b01000110] →
    step s = .next { s with
      phase := .started
      fault := { kind := .unknownInstruction, pc := s.pc, opcode := some (s.mem.read s.pc), space := .none,
                 detail := (s.mem.read s.pc).toNat } }) ∧
  (∀ (i : Instr) (s t : State), exec i s = .next t → s.fault.kind ≠ .unknownInstruction →
    t.fault.kind ≠ .unknownInstruction)

/-- R63, R85 (3): an instruction of the map with an operand byte above address 255 raises OutOfBounds (memory, 256)
whatever its other operand byte is, and nothing else of the machine changes (the phase is Started, log entry 2). -/
def Obligations.OperandFetchAbove255Faults : Prop :=
  ∀ (s : State) (o : Opcode), s.dispatcher = .running → s.pc ≤ 255 → s.mem.read s.pc = o.byte →
    256 < s.pc + o.width →
      step s = .next { s with
        phase := .started
        fault := { kind := .outOfBounds, pc := s.pc, opcode := some o.byte, space := .memory, detail := 256 } }

/-- R81: a step answers a next state exactly in Running. -/
def Obligations.StepsExistExactlyInRunning : Prop :=
  ∀ s : State, (∃ t, step s = .next t) ↔ (s.running = true ∧ s.fault.kind = .none)

/-- R81, R168, R177: in Halted and in Faulted the step is a named stop and a run changes nothing however long it is let
go on (that the stop is a fault of the model's own is log entry 1). -/
def Obligations.TerminalStatesStay : Prop :=
  ∀ (s : State) (n : Nat),
    (s.dispatcher = .halted → step s = .fault .halted ∧ runLoop n s = s) ∧
    (s.dispatcher = .faulted → step s = .fault .faulted ∧ runLoop n s = s)

/-! ### What each instruction does: completion, result and frame -/

/-- R100: LDI into any of the eight registers, SP among them, stores the immediate unchanged, advances pc by 3 and
changes nothing else. -/
def Obligations.LdiStoresTheImmediate : Prop :=
  ∀ (s : State) (r : Fin 8) (imm : Byte), ∃ t, exec (.ldi (regByte r) imm) s = .next t ∧
    t.reg r = imm ∧ (∀ j, j ≠ r → t.reg j = s.reg j) ∧
    (∀ a, t.mem.read a = s.mem.read a) ∧
    t.pc = s.pc + 3 ∧ t.running = s.running ∧ t.fault = s.fault ∧ t.out = s.out ∧ t.phase = s.phase

/-- R101: PRN of any of the eight registers appends its value to the output, advances pc by 2 and changes nothing
else. -/
def Obligations.PrnEmitsTheRegister : Prop :=
  ∀ (s : State) (r : Fin 8), ∃ t, exec (.prn (regByte r)) s = .next t ∧
    t.out = s.out ++ [s.reg r] ∧ (∀ j, t.reg j = s.reg j) ∧
    (∀ a, t.mem.read a = s.mem.read a) ∧
    t.pc = s.pc + 2 ∧ t.running = s.running ∧ t.fault = s.fault ∧ t.phase = s.phase

/-- R102: HLT clears the running flag in every state, raises nothing, leaves pc at itself and changes nothing else; in a
state with no fault recorded the machine is then Halted. -/
def Obligations.HltClearsRunning : Prop :=
  ∀ s : State, ∃ t, exec .hlt s = .next t ∧ t = { s with running := false } ∧
    (s.fault.kind = .none → t.dispatcher = .halted)

/-- R125: MUL of any two registers, the same one twice and SP among them, puts the product of the OLD values modulo 256
into the first, advances pc by 3 and changes nothing else. -/
def Obligations.MulMultipliesModulo256 : Prop :=
  ∀ (s : State) (a b : Fin 8), ∃ t, exec (.mul (regByte a) (regByte b)) s = .next t ∧
    (t.reg a).toNat = ((s.reg a).toNat * (s.reg b).toNat) % 256 ∧ (∀ j, j ≠ a → t.reg j = s.reg j) ∧
    (∀ c, t.mem.read c = s.mem.read c) ∧
    t.pc = s.pc + 3 ∧ t.running = s.running ∧ t.fault = s.fault ∧ t.out = s.out ∧ t.phase = s.phase

/-- R141, R146: PUSH of any register with SP not 0 moves SP down by 1 and writes the register's OLD value (the old SP for
PUSH R7) at the new SP; every byte at another address than the one pushed to, every other register and everything but pc is
unchanged. -/
def Obligations.PushStoresTheOldValue : Prop :=
  ∀ (s : State) (r : Fin 8), s.sp ≠ 0 → ∃ t, exec (.push (regByte r)) s = .next t ∧
    t.sp.toNat = s.sp.toNat - 1 ∧ pushAddr s = t.sp.toNat ∧
    t.mem.read (pushAddr s) = s.reg r ∧ (∀ a, a ≠ pushAddr s → t.mem.read a = s.mem.read a) ∧
    (∀ j, j ≠ Config.spIndex → t.reg j = s.reg j) ∧
    t.pc = s.pc + 2 ∧ t.running = s.running ∧ t.fault = s.fault ∧ t.out = s.out ∧ t.phase = s.phase

/-- R142, R147: POP into any register with SP at most 0xF4 loads the byte at the old SP; SP moves up by 1, except that POP
into R7 leaves the popped byte in SP; memory, every other register and everything but pc is unchanged. -/
def Obligations.PopLoadsFromTheStack : Prop :=
  ∀ (s : State) (r : Fin 8), s.sp.toNat ≤ 0xF4 → ∃ t, exec (.pop (regByte r)) s = .next t ∧
    t.reg r = s.mem.read s.sp.toNat ∧
    (r ≠ Config.spIndex → t.sp.toNat = s.sp.toNat + 1) ∧
    (∀ j, j ≠ r → j ≠ Config.spIndex → t.reg j = s.reg j) ∧
    (∀ a, t.mem.read a = s.mem.read a) ∧
    t.pc = s.pc + 2 ∧ t.running = s.running ∧ t.fault = s.fault ∧ t.out = s.out ∧ t.phase = s.phase

/-! ### Where instructions trap -/

/-- R13, R85 (4): the first register operand above 7, in operand order, raises OutOfBounds (register, index) in every
state, whatever the stack pointer is, and nothing but the fault status changes; with every register operand at most 7 an
instruction never records a register OutOfBounds. The index is the whole operand byte, not masked. -/
def Obligations.RegisterIndexAbove7Faults : Prop :=
  (∀ (i : Instr) (s : State) (d : Byte), i.regOperands.find? (fun b => decide (7 < b.toNat)) = some d →
    exec i s = .next { s with
      fault := { kind := .outOfBounds, pc := s.pc, opcode := some i.opcode.byte, space := .register,
                 detail := d.toNat } }) ∧
  (∀ (i : Instr) (s t : State), i.wellFormed = true → exec i s = .next t → s.fault.space ≠ .register →
    t.fault.space ≠ .register)

/-- R143: a push when SP = 0 raises StackOverflow with fault.detail = 0 before any state changes, for every register. -/
def Obligations.PushAtZeroOverflows : Prop :=
  ∀ (s : State) (r : Fin 8), s.sp = 0 →
    exec (.push (regByte r)) s = .next { s with
      fault := { kind := .stackOverflow, pc := s.pc, opcode := some 0x45, space := .none, detail := 0 } }

/-- R144: this hardware's limit is 0xF5, so a pop with SP above 0xF4 raises StackUnderflow with fault.detail = SP before
any state changes; a pop from the empty stack, SP = 0xF4, is allowed, reads the byte at 0xF4 and leaves SP at 0xF5 (unless it
is into R7); under every legal limit a pop underflows iff SP + 1 exceeds it. -/
def Obligations.PopAboveLimitUnderflows : Prop :=
  popLimit = 0xF5 ∧
  (∀ (s : State) (r : Fin 8), 0xF4 < s.sp.toNat →
    exec (.pop (regByte r)) s = .next { s with
      fault := { kind := .stackUnderflow, pc := s.pc, opcode := some 0x46, space := .none,
                 detail := s.sp.toNat } }) ∧
  (∀ (s : State) (r : Fin 8), s.sp = 0xF4 → ∃ t, exec (.pop (regByte r)) s = .next t ∧
    t.reg r = s.mem.read 0xF4 ∧ (r ≠ Config.spIndex → t.sp = 0xF5)) ∧
  (∀ (limit : Nat) (s : State) (r : Fin 8), 0xF4 ≤ limit → limit ≤ 0xFF →
    (popInto limit (regByte r) s = .error (.stackUnderflow s.sp) ↔ limit < s.sp.toNat + 1))

/-- R145: no stack access raises OutOfBounds: PUSH and POP of a register that exists either leave the fault status as it
was or record a stack overflow or underflow. -/
def Obligations.StackAccessesStayInMemory : Prop :=
  ∀ (s t : State) (r : Fin 8),
    (exec (.push (regByte r)) s = .next t → t.fault = s.fault ∨ t.fault.kind = .stackOverflow) ∧
    (exec (.pop (regByte r)) s = .next t → t.fault = s.fault ∨ t.fault.kind = .stackUnderflow)

/-- R123, R160: which kinds exec, the part of an instruction after its operand bytes have been read, can record from a
state with none recorded: HLT none; LDI, PRN and MUL only a register OutOfBounds; PUSH that or StackOverflow; POP that or
StackUnderflow. So no instruction records UnsupportedAluOperation. The memory OutOfBounds that R160 gives these instructions'
operand fetches is raised by the step before exec (log entry 12), and OperandFetchAbove255Faults states it. -/
def Obligations.FaultKindsByInstruction : Prop :=
  ∀ (i : Instr) (s t : State), s.fault.kind = .none → exec i s = .next t →
    match i with
    | .hlt => t.fault = s.fault
    | .ldi _ _ => t.fault = s.fault ∨ (t.fault.kind = .outOfBounds ∧ t.fault.space = .register)
    | .prn _ => t.fault = s.fault ∨ (t.fault.kind = .outOfBounds ∧ t.fault.space = .register)
    | .mul _ _ => t.fault = s.fault ∨ (t.fault.kind = .outOfBounds ∧ t.fault.space = .register)
    | .push _ =>
      t.fault = s.fault ∨ (t.fault.kind = .outOfBounds ∧ t.fault.space = .register) ∨ t.fault.kind = .stackOverflow
    | .pop _ =>
      t.fault = s.fault ∨ (t.fault.kind = .outOfBounds ∧ t.fault.space = .register) ∨ t.fault.kind = .stackUnderflow

/-! ### The ALU block (42_alu.md) -/

/-- R122: the ALU's results are the exact sum and product modulo 256. -/
def Obligations.AluResultsAreModulo256 : Prop :=
  ∀ va vb : Byte,
    (aluResult .add va vb).toNat = (va.toNat + vb.toNat) % 256 ∧
    (aluResult .mul va vb).toNat = (va.toNat * vb.toNat) % 256

/-- R120, R121, R127: the ALU applied with the tag 00 or 01 to two registers writes ADD's or MUL's result of their old
values to the first and changes nothing else, no pc and no memory. -/
def Obligations.AluWritesOnlyRegisterA : Prop :=
  ∀ (s : State) (a b : Fin 8),
    (∃ t, aluApply 0b00 (regByte a) (regByte b) s = .ok t ∧
      (t.reg a).toNat = ((s.reg a).toNat + (s.reg b).toNat) % 256 ∧
      (∀ j, j ≠ a → t.reg j = s.reg j) ∧ t = { s with x := t.x }) ∧
    (∃ t, aluApply 0b01 (regByte a) (regByte b) s = .ok t ∧
      (t.reg a).toNat = ((s.reg a).toNat * (s.reg b).toNat) % 256 ∧
      (∀ j, j ≠ a → t.reg j = s.reg j) ∧ t = { s with x := t.x })

/-- R121, R123: the tags 10 and 11 raise UnsupportedAluOperation with the tag as detail, whatever the operands are (that
the tag is looked at before the indices is log entry 4), and no register is written. -/
def Obligations.UnsupportedAluTagsFault : Prop :=
  ∀ (s : State) (a b : Byte) (tag : BitVec 2) (op : Opcode), tag = 0b10 ∨ tag = 0b11 →
    retire op s (aluApply tag a b s) = .next { s with
      fault := { kind := .unsupportedAluOperation, pc := s.pc, opcode := some op.byte, space := .none,
                 detail := tag.toNat } }

/-- R126: ADD and MUL are commutative and associative modulo 256, MUL distributes over ADD, 0 is the identity of ADD
and 1 of MUL. -/
def Obligations.AluArithmeticLaws : Prop :=
  ∀ a b c : Byte,
    aluResult .add a b = aluResult .add b a ∧
    aluResult .mul a b = aluResult .mul b a ∧
    aluResult .add (aluResult .add a b) c = aluResult .add a (aluResult .add b c) ∧
    aluResult .mul (aluResult .mul a b) c = aluResult .mul a (aluResult .mul b c) ∧
    aluResult .mul a (aluResult .add b c) = aluResult .add (aluResult .mul a b) (aluResult .mul a c) ∧
    aluResult .add a 0 = a ∧ aluResult .mul a 1 = a

/-! ### Two instructions together -/

/-- R148: PUSH then POP on the same register, SP among them, with 1 <= SP <= SP_POP_LIMIT, restores every register, the
stack pointer included. -/
def Obligations.PushThenPopRestores : Prop :=
  ∀ (s : State) (r : Fin 8), 1 ≤ s.sp.toNat → s.sp.toNat ≤ popLimit →
    ∃ t u, exec (.push (regByte r)) s = .next t ∧ exec (.pop (regByte r)) t = .next u ∧
      u.reg r = s.reg r ∧ u.sp = s.sp ∧ (∀ j, u.reg j = s.reg j) ∧ u.fault = s.fault

/-- R103: LDI followed by PRN on the same register emits exactly the value LDI stored. -/
def Obligations.PrnAfterLdiEmitsTheImmediate : Prop :=
  ∀ (s : State) (r : Fin 8) (imm : Byte),
    ∃ t u, exec (.ldi (regByte r) imm) s = .next t ∧ exec (.prn (regByte r)) t = .next u ∧
      u.out = s.out ++ [imm]

/-- R52, R90, R194: a HLT byte that a PUSH writes just ahead of pc halts the machine at the very next step: the fetch
sees the store. -/
def Obligations.PushedHltIsFetched : Prop :=
  ∀ (s : State) (r : Fin 8), s.dispatcher = .running → s.pc + 2 ≤ 255 →
    s.mem.read s.pc = 0x45 → s.mem.read (s.pc + 1) = regByte r →
    s.sp.toNat = s.pc + 3 → s.reg r = 0x01 →
      ∃ t u, step s = .next t ∧ step t = .next u ∧ u.dispatcher = .halted ∧ u.pc = s.pc + 2

/-! ### What no instruction does: rules over the whole machine -/

/-- R15: a register whose value an instruction changes is one the table lists as written: LDI's and MUL's first operand,
SP for PUSH, SP and the operand for POP, none for PRN and HLT. -/
def Obligations.RegistersWrittenByInstruction : Prop :=
  ∀ (i : Instr) (s t : State) (j : Fin 8), exec i s = .next t → t.reg j ≠ s.reg j →
    match i with
    | .ldi r _ => j.val = r.toNat
    | .prn _ => False
    | .hlt => False
    | .mul a _ => j.val = a.toNat
    | .push _ => j = Config.spIndex
    | .pop r => j = Config.spIndex ∨ j.val = r.toNat

/-- R19: of the instructions only PUSH changes memory, and only the byte at the address it pushes to; so a step that changes
a byte of memory ran a PUSH opcode and changed that byte alone. -/
def Obligations.OnlyPushWritesMemory : Prop :=
  (∀ (i : Instr) (s t : State) (a : Nat), exec i s = .next t → t.mem.read a ≠ s.mem.read a →
    ∃ r, i = .push r ∧ a = pushAddr s) ∧
  (∀ (s t : State) (a : Nat), step s = .next t → t.mem.read a ≠ s.mem.read a →
    s.mem.read s.pc = 0b01000101 ∧ a = pushAddr s)

/-- R27, R197: each PRN that completes appends exactly one byte, the register's value, at the end of the output, and nothing
else writes it. Of exec: PRN of a register appends its value, PRN of an index above 7 and every other instruction leave the
output as it was. Of a step: one that records no fault and fetched PRN's opcode appends the value of the register its operand
byte names; one that records a fault, and one that fetched another byte, leave the output as it was. -/
def Obligations.OnlyPrnWritesOutput : Prop :=
  (∀ (i : Instr) (s t : State), exec i s = .next t → (∀ r, i ≠ .prn r) → t.out = s.out) ∧
  (∀ (r : Byte) (s t : State), exec (.prn r) s = .next t →
    if r.toNat ≤ 7 then ∃ rf : Fin 8, r = regByte rf ∧ t.out = s.out ++ [s.reg rf] else t.out = s.out) ∧
  (∀ s t : State, step s = .next t →
    if t.fault.kind = .none ∧ s.mem.read s.pc = 0b01000111 then
      ∃ r : Fin 8, s.mem.read (s.pc + 1) = regByte r ∧ t.out = s.out ++ [s.reg r]
    else t.out = s.out)

/-- R104: HLT is the only instruction that writes the running flag, and it only clears it; no step sets it, and a step
that clears it fetched a HLT byte. -/
def Obligations.OnlyHltWritesRunning : Prop :=
  (∀ (i : Instr) (s t : State), exec i s = .next t →
    t.running = s.running ∨ (i = .hlt ∧ t.running = false)) ∧
  (∀ s t : State, step s = .next t →
    t.running = true ∨ (t.running = false ∧ s.mem.read s.pc = 0b00000001))

/-- R22, R84, R87: a step that records no fault moves pc by its opcode's advance (LDI 3, PRN 2, HLT 0, MUL 3, PUSH 2,
POP 2) without reduction modulo 256, and a step that records one leaves pc where it was. -/
def Obligations.PcMovesByTheAdvance : Prop :=
  ∀ s t : State, step s = .next t →
    (t.fault.kind ≠ .none ∧ t.pc = s.pc) ∨
    (t.fault.kind = .none ∧
      ((s.mem.read s.pc = 0x82 ∧ t.pc = s.pc + 3) ∨ (s.mem.read s.pc = 0x47 ∧ t.pc = s.pc + 2) ∨
       (s.mem.read s.pc = 0x01 ∧ t.pc = s.pc) ∨ (s.mem.read s.pc = 0xA2 ∧ t.pc = s.pc + 3) ∨
       (s.mem.read s.pc = 0x45 ∧ t.pc = s.pc + 2) ∨ (s.mem.read s.pc = 0x46 ∧ t.pc = s.pc + 2)))

/-- R163: a step that records a fault changes nothing but the fault status (and the phase, log entry 2): registers,
memory, pc, running and out are as before it; the record names the faulting instruction's pc and its opcode byte, invalid
iff the opcode fetch itself was above 255. -/
def Obligations.FaultsArePrecise : Prop :=
  ∀ s t : State, step s = .next t → t.fault.kind ≠ .none →
    t = { s with phase := .started, fault := t.fault } ∧ t.fault.pc = s.pc ∧
      t.fault.opcode = (if s.pc ≤ 255 then some (s.mem.read s.pc) else none)

/-- R26, R166: a fault and a halt never happen in one step. -/
def Obligations.NoStepHaltsAndFaults : Prop :=
  ∀ s t : State, step s = .next t → t.running = true ∨ t.fault.kind = .none

/-- R193: what a program needs for its next step to complete: when the bytes at pc decode to an instruction whose register
operands are at most 7 and the stack is ready for it, the step records no fault, and unless it is HLT the machine is still
Running. -/
def Obligations.ReadyInstructionsStaySafe : Prop :=
  ∀ (s : State) (i : Instr) (rest : List Byte),
    s.dispatcher = .running → decode (codeAt s) = .ok (i, rest) → i.wellFormed = true → stackReady i s = true →
      ∃ t, step s = .next t ∧ Safe t ∧ (i ≠ .hlt → t.dispatcher = .running)

/-! ### Memory (10_state.md, 20_memory.md) -/

/-- R18: a read and a write at an address above 255 fail with OutOfBounds and do not wrap; below, a write stores the value
modulo 256, a later read of that address gives it, every other address reads as before, and nothing else changes. -/
def Obligations.MemoryReadsWhatWasWritten : Prop :=
  ∀ (s : State) (a v : Nat),
    (255 < a → memRead s a = .error (.outOfBounds .memory a) ∧ memWrite a v s = .error (.outOfBounds .memory a)) ∧
    (a ≤ 255 → (∃ b, memRead s a = .ok b) ∧
      ∃ t, memWrite a v s = .ok t ∧ memRead t a = .ok (BitVec.ofNat 8 v) ∧
        (∀ b, b ≠ a → memRead t b = memRead s b) ∧ t = { s with mem := t.mem })

/-- R17: memory is its 256 cells and nothing more: two memories in canonical form that read the same everywhere are the
same data. -/
def Obligations.MemoryFormIsCanonical : Prop :=
  ∀ m n : Memory, m.wf → n.wf → (∀ a, a ≤ 255 → m.read a = n.read a) → m = n

/-! ### Reset, the invariant, the host interface -/

/-- R31: what reset leaves, from any state before it: memory and registers zero, SP 0xF4, pc 0, running, no fault, no
output, phase Fresh. -/
def Obligations.ResetGivesTheStatedValues : Prop :=
  ∀ s : State,
    (∀ a, a ≤ 255 → (hostReset s).mem.read a = 0) ∧
    (∀ j : Fin 8, j ≠ 7 → (hostReset s).reg j = 0) ∧ (hostReset s).reg 7 = 0xF4 ∧
    (hostReset s).pc = 0 ∧ (hostReset s).running = true ∧
    (hostReset s).fault = { kind := .none, pc := 0, opcode := none, space := .none, detail := 0 } ∧
    (hostReset s).out = [] ∧ (hostReset s).phase = .fresh

/-- R190: the invariant holds at reset, and the machine is Running there. -/
def Obligations.ResetMeetsTheInvariant : Prop :=
  Inv State.reset ∧ State.reset.dispatcher = .running

/-- R21, R24, R25, R26, R28, R102, R123: every step keeps the invariant: memory in canonical form; pc at most 256; a fault
record one the spec describes, naming the pc and opcode of the instruction pc still stands at; Halted only at a HLT byte,
and never Faulted too; before the first step only memory and the phase differ from reset. -/
def Obligations.StepKeepsTheInvariant : Prop :=
  ∀ s t : State, Inv s → step s = .next t → Inv t

/-- R172, R173: everything the host can do keeps the invariant: a reset, a load accepted or refused, a whole run, a debug
read. -/
def Obligations.HostActionsKeepTheInvariant : Prop :=
  ∀ (a : HostAction) (s : State), Inv s → Inv (hostAct a s)

/-- R88, R89, R172: every run ends, from any state whatever: after at most 129 steps from the state whose phase is Started
the machine is either Halted, and Halted is what the run reports, or Faulted, and the run reports Faulted with the fault
status the machine ends with. -/
def Obligations.EveryRunEnds : Prop :=
  ∀ s : State,
    (run s).2 = runLoop 129 { s with phase := .started } ∧
    (((run s).2.dispatcher = .halted ∧ (run s).1 = .halted) ∨
      ((run s).2.dispatcher = .faulted ∧ (run s).1 = .faulted (run s).2.fault))

/-- R88: a run is its steps: a run of a Running state is one step and then the run of what the step gives, and longer step
bounds give the same run. -/
def Obligations.RunIsItsSteps : Prop :=
  ∀ s t : State, step s = .next t → run s = run t ∧ ∀ n, runBound ≤ n → runLoop n s.start = (run s).2

/-- R33, R172: load in phase Fresh of at most 256 values is accepted: cell k holds value k modulo 256, every cell past the
image is 0, the phase is Loaded and nothing else changes. -/
def Obligations.LoadFillsMemoryFromZero : Prop :=
  ∀ (s : State) (bytes : List Nat), Inv s → s.phase = .fresh → bytes.length ≤ 256 →
    (load bytes s).1 = .accepted ∧
    (∀ k (h : k < bytes.length), (load bytes s).2.mem.read k = BitVec.ofNat 8 bytes[k]) ∧
    (∀ k, bytes.length ≤ k → (load bytes s).2.mem.read k = 0) ∧
    (load bytes s).2 = { s with mem := (load bytes s).2.mem, phase := .loaded }

/-- R172: a load of more than 256 values is refused with OutOfBounds (address 256), a load in any phase but Fresh is
refused, and a refused load changes no state, the fault status among it (which reason is given when both hold is log
entry 3). -/
def Obligations.RefusedLoadsChangeNothing : Prop :=
  ∀ (s : State) (bytes : List Nat),
    (256 < bytes.length → load bytes s = (.outOfBounds 256, s)) ∧
    (s.phase ≠ .fresh → bytes.length ≤ 256 → load bytes s = (.alreadyLoaded, s))

/-- R66, R172: a run with nothing loaded raises UnknownInstruction for the byte 0x00 at pc 0. -/
def Obligations.RunWithoutLoadFaults : Prop :=
  run State.reset =
    (.faulted { kind := .unknownInstruction, pc := 0, opcode := some 0, space := .none, detail := 0 },
      { State.reset with
        phase := .started
        fault := { kind := .unknownInstruction, pc := 0, opcode := some 0, space := .none, detail := 0 } })

/-- R176, R178: the debug read port answers, on the nine bits of debug_data, pc, running, every field of the fault status,
every register and every memory cell, and OutOfBounds for a memory address above 255; and a debug read has no effect on the
state. That narrower values stand in the low bits, and fault.opcode's valid bit above its byte, is log entry 9; that an invalid
opcode shows 0 is log entry 8. -/
def Obligations.DebugPortReadsTheState : Prop :=
  ∀ s : State,
    debugRead .pc s = .value (BitVec.ofNat 9 s.pc) ∧
    debugRead .running s = .value (if s.running then 1 else 0) ∧
    debugRead .faultKind s = .value (BitVec.ofNat 9 s.fault.kind.code.toNat) ∧
    debugRead .faultPc s = .value (BitVec.ofNat 9 s.fault.pc) ∧
    debugRead .faultOpcode s =
      .value (match s.fault.opcode with
        | some b => BitVec.ofNat 9 (0x100 + b.toNat)
        | none => 0) ∧
    debugRead .faultSpace s = .value (BitVec.ofNat 9 s.fault.space.code.toNat) ∧
    debugRead .faultDetail s = .value (BitVec.ofNat 9 s.fault.detail) ∧
    (∀ i, debugRead (.reg i) s = .value (BitVec.ofNat 9 (s.reg i).toNat)) ∧
    (∀ a, a ≤ 255 → debugRead (.mem a) s = .value (BitVec.ofNat 9 (s.mem.read a).toNat)) ∧
    (∀ a, 255 < a → debugRead (.mem a) s = .outOfBounds a) ∧
    (∀ sel, hostAct (.debugRead sel) s = s)

/-- R21, R24, R178: 9 bits hold every reachable pc and every recorded fault.pc and fault.detail, so neither the fault_info
port nor debug_data loses any of one: what debug_data shows of them is the number itself. -/
def Obligations.NineBitPortsLoseNothing : Prop :=
  ∀ s : State, Inv s →
    s.pc < 2 ^ 9 ∧ (faultInfoPort s).pc.toNat = s.fault.pc ∧ (faultInfoPort s).detail.toNat = s.fault.detail ∧
    (∃ v, debugRead .pc s = .value v ∧ v.toNat = s.pc) ∧
    (∃ v, debugRead .faultPc s = .value v ∧ v.toNat = s.fault.pc) ∧
    (∃ v, debugRead .faultDetail s = .value v ∧ v.toNat = s.fault.detail)

/-- R24, R25: the code numbers of the fault kinds and spaces; 6 and 7 are never written. -/
def Obligations.FaultCodesAreTheTables : Prop :=
  FaultKind.none.code = 0 ∧ FaultKind.outOfBounds.code = 1 ∧ FaultKind.unknownInstruction.code = 2 ∧
  FaultKind.unsupportedAluOperation.code = 3 ∧ FaultKind.stackOverflow.code = 4 ∧
  FaultKind.stackUnderflow.code = 5 ∧ (∀ k : FaultKind, k.code ≠ 6 ∧ k.code ≠ 7) ∧
  FaultSpace.none.code = 0 ∧ FaultSpace.memory.code = 1 ∧ FaultSpace.register.code = 2
end

