-- ==== Sys2Proof/Laws/Decode.lean ====
section
/-! SUPPORT. The laws of the opcode map and of decode over any byte source. -/

namespace Sys2Proof

@[simp] theorem Opcode.ofByte?_byte (o : Opcode) : Opcode.ofByte? o.byte = some o := by cases o <;> rfl

/-- The bytes with no entry are exactly those outside the six (30_encoding.md R64, R66). -/
theorem Opcode.ofByte?_eq_none_iff (op : Byte) :
    Opcode.ofByte? op = none ↔
      op ∉ ([0b10000010, 0b01000111, 0b00000001, 0b10100010, 0b01000101, 0b01000110] : List Byte) := by
  revert op
  decide

/-- A byte looks up an entry only if it is that entry's opcode byte. -/
theorem Opcode.byte_of_ofByte? {b : Byte} {o : Opcode} (h : Opcode.ofByte? b = some o) : b = o.byte := by
  unfold Opcode.ofByte? at h
  repeat' split at h
  all_goals simp at h
  all_goals (subst h; assumption)

theorem readList_of_some {bs : List Byte} {k : Nat} {b : Byte} (h : bs[k]? = some b) : readList bs k = .ok b := by
  simp [readList, h]

/-- A list gives a byte at an offset iff it has one there. -/
theorem readList_ok_iff {bs : List Byte} {k : Nat} {b : Byte} : readList bs k = .ok b ↔ bs[k]? = some b := by
  cases h : bs[k]? <;> simp [readList, h]

/-- Everything a decode that succeeds has read: the opcode byte, and the instruction's other bytes in order. -/
theorem decodeWith_ok {ε : Type} {read : Nat → Except ε Byte} {unknown : Byte → ε} {i : Instr}
    (h : decodeWith read unknown = .ok i) :
    ∀ k b, (encode i)[k]? = some b → read k = .ok b := by
  unfold decodeWith at h
  cases h0 : read 0 with
  | error e => simp [h0, bind, Except.bind] at h
  | ok op =>
    simp only [h0, bind, Except.bind] at h
    cases ho : Opcode.ofByte? op with
    | none => simp [ho] at h
    | some o =>
      have hop := Opcode.byte_of_ofByte? ho
      cases o <;> simp only [ho] at h
      case hlt =>
        obtain rfl : Instr.hlt = i := by simpa using h
        rintro (_ | k) b hb
        · simp [encode] at hb; subst hb; rw [h0, hop]; rfl
        · simp [encode] at hb
      all_goals (cases h1 : read 1 <;> simp only [h1] at h; · simp at h)
      case prn.ok r | push.ok r | pop.ok r =>
        injection h with h
        subst h
        rintro (_ | _ | k) b hb
        · simp [encode] at hb; subst hb; rw [h0, hop]; rfl
        · simp [encode] at hb; subst hb; exact h1
        · simp [encode] at hb
      all_goals (cases h2 : read 2 <;> simp only [h2] at h; · simp at h)
      all_goals
        injection h with h
        subst h
        rintro (_ | _ | _ | k) b hb
        · simp [encode] at hb; subst hb; rw [h0, hop]; rfl
        · simp [encode] at hb; subst hb; exact h1
        · simp [encode] at hb; subst hb; exact h2
        · simp [encode] at hb

/-- A source that gives an instruction's bytes decodes to it. -/
theorem decodeWith_of_bytes {ε : Type} {read : Nat → Except ε Byte} {unknown : Byte → ε} (i : Instr)
    (h : ∀ k b, (encode i)[k]? = some b → read k = .ok b) : decodeWith read unknown = .ok i := by
  have h0 := h 0
  have h1 := h 1
  have h2 := h 2
  cases i <;>
    simp_all [encode, decodeWith, bind, Except.bind, Opcode.ofByte?, Opcode.byte]

/-- An opcode byte with no entry is rejected by name. -/
theorem decodeWith_unknown {ε : Type} {read : Nat → Except ε Byte} {unknown : Byte → ε} {op : Byte}
    (h0 : read 0 = .ok op) (h : Opcode.ofByte? op = none) : decodeWith read unknown = .error (unknown op) := by
  simp [decodeWith, h0, h, bind, Except.bind]

/-- A failure to read the opcode byte is the failure of the decode. -/
theorem decodeWith_error_zero {ε : Type} {read : Nat → Except ε Byte} {unknown : Byte → ε} {e : ε}
    (h0 : read 0 = .error e) : decodeWith read unknown = .error e := by
  simp [decodeWith, h0, bind, Except.bind]

/-- A failure to read the first operand byte is the failure of the decode of every entry wider than one byte. -/
theorem decodeWith_error_one {ε : Type} {read : Nat → Except ε Byte} {unknown : Byte → ε} {op : Byte} {o : Opcode}
    {e : ε} (h0 : read 0 = .ok op) (ho : Opcode.ofByte? op = some o) (hw : 1 < o.width)
    (h1 : read 1 = .error e) : decodeWith read unknown = .error e := by
  cases o <;> first
    | (simp [decodeWith, h0, ho, h1, bind, Except.bind]; done)
    | simp [Opcode.width, Opcode.format, Format.width] at hw

/-- A failure to read the second operand byte is the failure of the decode of every entry of three bytes. -/
theorem decodeWith_error_two {ε : Type} {read : Nat → Except ε Byte} {unknown : Byte → ε} {op b : Byte} {o : Opcode}
    {e : ε} (h0 : read 0 = .ok op) (ho : Opcode.ofByte? op = some o) (hw : 2 < o.width)
    (h1 : read 1 = .ok b) (h2 : read 2 = .error e) : decodeWith read unknown = .error e := by
  cases o <;> first
    | (simp [decodeWith, h0, ho, h1, h2, bind, Except.bind]; done)
    | simp [Opcode.width, Opcode.format, Format.width] at hw

/-- A source that gives every byte of an entry's width decodes to an instruction of that entry. -/
theorem decodeWith_of_width {ε : Type} {read : Nat → Except ε Byte} {unknown : Byte → ε} {op : Byte} {o : Opcode}
    (h0 : read 0 = .ok op) (ho : Opcode.ofByte? op = some o) (h : ∀ k < o.width, ∃ b, read k = .ok b) :
    ∃ i, i.opcode = o ∧ decodeWith read unknown = .ok i := by
  cases o <;> simp only [Opcode.width, Opcode.format, Format.width] at h
  case hlt => exact ⟨.hlt, rfl, by simp [decodeWith, h0, ho, bind, Except.bind]⟩
  all_goals obtain ⟨b, h1⟩ := h 1 (by omega)
  case prn => exact ⟨.prn b, rfl, by simp [decodeWith, h0, ho, h1, bind, Except.bind]⟩
  case push => exact ⟨.push b, rfl, by simp [decodeWith, h0, ho, h1, bind, Except.bind]⟩
  case pop => exact ⟨.pop b, rfl, by simp [decodeWith, h0, ho, h1, bind, Except.bind]⟩
  all_goals obtain ⟨c, h2⟩ := h 2 (by omega)
  case ldi => exact ⟨.ldi b c, rfl, by simp [decodeWith, h0, ho, h1, h2, bind, Except.bind]⟩
  case mul => exact ⟨.mul b c, rfl, by simp [decodeWith, h0, ho, h1, h2, bind, Except.bind]⟩

end Sys2Proof
end

