-- ==== Sys2Proof/Laws/State.lean ====
section
/-! SUPPORT. One lemma per field of State per update, so that no proof unfolds a record update. -/

namespace Sys2Proof.Machine

variable (s : State)

/-! ### setReg -/

@[simp] theorem State.setReg_mem (i : Fin 8) (v : Nat) : (s.setReg i v).mem = s.mem := rfl
@[simp] theorem State.setReg_x (i : Fin 8) (v : Nat) : (s.setReg i v).x = s.x.set i (wrap8 v) := rfl
@[simp] theorem State.setReg_pc (i : Fin 8) (v : Nat) : (s.setReg i v).pc = s.pc := rfl
@[simp] theorem State.setReg_running (i : Fin 8) (v : Nat) : (s.setReg i v).running = s.running := rfl
@[simp] theorem State.setReg_fault (i : Fin 8) (v : Nat) : (s.setReg i v).fault = s.fault := rfl
@[simp] theorem State.setReg_out (i : Fin 8) (v : Nat) : (s.setReg i v).out = s.out := rfl
@[simp] theorem State.setReg_phase (i : Fin 8) (v : Nat) : (s.setReg i v).phase = s.phase := rfl

/-! ### setSp -/

@[simp] theorem State.setSp_mem (v : Nat) : (s.setSp v).mem = s.mem := rfl
@[simp] theorem State.setSp_x (v : Nat) : (s.setSp v).x = s.x.set Config.spIndex (wrap8 v) := rfl
@[simp] theorem State.setSp_pc (v : Nat) : (s.setSp v).pc = s.pc := rfl
@[simp] theorem State.setSp_running (v : Nat) : (s.setSp v).running = s.running := rfl
@[simp] theorem State.setSp_fault (v : Nat) : (s.setSp v).fault = s.fault := rfl
@[simp] theorem State.setSp_out (v : Nat) : (s.setSp v).out = s.out := rfl
@[simp] theorem State.setSp_phase (v : Nat) : (s.setSp v).phase = s.phase := rfl

/-! ### emit -/

@[simp] theorem State.emit_mem (v : Byte) : (s.emit v).mem = s.mem := rfl
@[simp] theorem State.emit_x (v : Byte) : (s.emit v).x = s.x := rfl
@[simp] theorem State.emit_pc (v : Byte) : (s.emit v).pc = s.pc := rfl
@[simp] theorem State.emit_running (v : Byte) : (s.emit v).running = s.running := rfl
@[simp] theorem State.emit_fault (v : Byte) : (s.emit v).fault = s.fault := rfl
@[simp] theorem State.emit_out (v : Byte) : (s.emit v).out = s.out ++ [v] := rfl
@[simp] theorem State.emit_phase (v : Byte) : (s.emit v).phase = s.phase := rfl
@[simp] theorem State.emit_reg (v : Byte) (j : Fin 8) : (s.emit v).reg j = s.reg j := rfl
@[simp] theorem State.emit_sp (v : Byte) : (s.emit v).sp = s.sp := rfl

/-! ### stop -/

@[simp] theorem State.stop_mem : s.stop.mem = s.mem := rfl
@[simp] theorem State.stop_x : s.stop.x = s.x := rfl
@[simp] theorem State.stop_pc : s.stop.pc = s.pc := rfl
@[simp] theorem State.stop_running : s.stop.running = false := rfl
@[simp] theorem State.stop_fault : s.stop.fault = s.fault := rfl
@[simp] theorem State.stop_out : s.stop.out = s.out := rfl
@[simp] theorem State.stop_phase : s.stop.phase = s.phase := rfl
@[simp] theorem State.stop_reg (j : Fin 8) : s.stop.reg j = s.reg j := rfl
@[simp] theorem State.stop_sp : s.stop.sp = s.sp := rfl

/-! ### start -/

@[simp] theorem State.start_mem : s.start.mem = s.mem := rfl
@[simp] theorem State.start_x : s.start.x = s.x := rfl
@[simp] theorem State.start_pc : s.start.pc = s.pc := rfl
@[simp] theorem State.start_running : s.start.running = s.running := rfl
@[simp] theorem State.start_fault : s.start.fault = s.fault := rfl
@[simp] theorem State.start_out : s.start.out = s.out := rfl
@[simp] theorem State.start_phase : s.start.phase = .started := rfl
@[simp] theorem State.start_reg (j : Fin 8) : s.start.reg j = s.reg j := rfl
@[simp] theorem State.start_sp : s.start.sp = s.sp := rfl

/-! ### advance -/

@[simp] theorem State.advance_mem (op : Opcode) : (s.advance op).mem = s.mem := rfl
@[simp] theorem State.advance_x (op : Opcode) : (s.advance op).x = s.x := rfl
@[simp] theorem State.advance_pc (op : Opcode) : (s.advance op).pc = s.pc + op.advance := rfl
@[simp] theorem State.advance_running (op : Opcode) : (s.advance op).running = s.running := rfl
@[simp] theorem State.advance_fault (op : Opcode) : (s.advance op).fault = s.fault := rfl
@[simp] theorem State.advance_out (op : Opcode) : (s.advance op).out = s.out := rfl
@[simp] theorem State.advance_phase (op : Opcode) : (s.advance op).phase = s.phase := rfl
@[simp] theorem State.advance_reg (op : Opcode) (j : Fin 8) : (s.advance op).reg j = s.reg j := rfl
@[simp] theorem State.advance_sp (op : Opcode) : (s.advance op).sp = s.sp := rfl

/-! ### raise -/

@[simp] theorem State.raise_mem (op : Option Byte) (c : Cause) : (s.raise op c).mem = s.mem := rfl
@[simp] theorem State.raise_x (op : Option Byte) (c : Cause) : (s.raise op c).x = s.x := rfl
@[simp] theorem State.raise_pc (op : Option Byte) (c : Cause) : (s.raise op c).pc = s.pc := rfl
@[simp] theorem State.raise_running (op : Option Byte) (c : Cause) : (s.raise op c).running = s.running := rfl
@[simp] theorem State.raise_fault (op : Option Byte) (c : Cause) : (s.raise op c).fault = { kind := c.kind, pc := s.pc, opcode := op, space := c.space, detail := c.detail } := rfl
@[simp] theorem State.raise_out (op : Option Byte) (c : Cause) : (s.raise op c).out = s.out := rfl
@[simp] theorem State.raise_phase (op : Option Byte) (c : Cause) : (s.raise op c).phase = s.phase := rfl
@[simp] theorem State.raise_reg (op : Option Byte) (c : Cause) (j : Fin 8) : (s.raise op c).reg j = s.reg j := rfl
@[simp] theorem State.raise_sp (op : Option Byte) (c : Cause) : (s.raise op c).sp = s.sp := rfl

/-! ### Registers -/

@[simp] theorem State.reg_setReg_self (i : Fin 8) (v : Nat) : (s.setReg i v).reg i = wrap8 v := by
  simp [State.reg]

@[simp] theorem State.reg_setReg_of_ne (i j : Fin 8) (v : Nat) (h : i ≠ j) : (s.setReg i v).reg j = s.reg j := by
  have : i.val ≠ j.val := fun e => h (Fin.ext e)
  simp [State.reg, this]

/-- A register read after a register write, in one equation. -/
theorem State.reg_setReg (i j : Fin 8) (v : Nat) :
    (s.setReg i v).reg j = if i = j then wrap8 v else s.reg j := by
  split
  · next h => subst h; simp
  · next h => simp [h]

@[simp] theorem State.sp_setSp (v : Nat) : (s.setSp v).sp = wrap8 v := by
  simp [State.sp, State.setSp]

@[simp] theorem State.reg_setSp_of_ne (j : Fin 8) (v : Nat) (h : Config.spIndex ≠ j) :
    (s.setSp v).reg j = s.reg j := by
  simp [State.setSp, h]

/-! ### Bytes -/

@[simp] theorem wrap8_toNat (b : Byte) : wrap8 b.toNat = b := by simp [wrap8]

@[simp] theorem toNat_wrap8 (v : Nat) : (wrap8 v).toNat = v % 256 := by simp [wrap8]

end Sys2Proof.Machine
end

