-- ==== Sys2Proof/Laws/Memory.lean ====
section
/-! SUPPORT. The laws of memory: read after write, and that every operation keeps the canonical form. -/

namespace Sys2Proof.Machine

/-! ### Reads -/

@[simp] theorem Memory.read_nil (a : Nat) : Memory.read [] a = Config.memReset := rfl

theorem Memory.read_cons (c : Host.Cell) (m : Memory) (a : Nat) :
    Memory.read (c :: m) a = if c.1 = a then c.2 else Memory.read m a := rfl

/-- An address no entry lists reads as the reset contents. -/
theorem Memory.read_of_unlisted {m : Memory} {a : Nat} (h : ∀ c ∈ m, c.1 ≠ a) : m.read a = Config.memReset := by
  induction m with
  | nil => rfl
  | cons c m ih =>
    rw [Memory.read_cons, if_neg (h c (by simp)), ih fun d hd => h d (by simp [hd])]

theorem Memory.read_erase (m : Memory) (a b : Nat) :
    (m.erase a).read b = if a = b then Config.memReset else m.read b := by
  induction m with
  | nil => simp [Memory.erase]
  | cons c m ih =>
    unfold Memory.erase at ih ⊢
    by_cases hc : c.1 = a
    · simp only [List.filter_cons, hc, bne_self_eq_false, Bool.false_eq_true, if_false, ih, Memory.read_cons]
      split <;> rfl
    · simp only [List.filter_cons, bne_iff_ne, ne_eq, hc, not_false_eq_true, if_true, Memory.read_cons, ih]
      by_cases hb : c.1 = b
      · have : a ≠ b := fun e => hc (hb.trans e.symm)
        simp [hb, this]
      · simp [hb]

/-- Reading after listing a byte at an address that is not listed. -/
theorem Memory.read_insert (m : Memory) (a b : Nat) (v : Byte) (h : ∀ c ∈ m, c.1 ≠ a) :
    (m.insert a v).read b = if a = b then v else m.read b := by
  induction m with
  | nil => simp [Memory.insert, Memory.read_cons]
  | cons c m ih =>
    obtain ⟨k, w⟩ := c
    have hk : k ≠ a := h (k, w) (by simp)
    have hm := ih fun d hd => h d (by simp [hd])
    simp only [Memory.insert]
    split
    · simp only [Memory.read_cons]
    · simp only [Memory.read_cons, hm]
      by_cases hb : k = b
      · have : a ≠ b := fun e => hk (hb.trans e.symm)
        simp [hb, this]
      · simp [hb]

theorem Memory.erase_unlisted (m : Memory) (a : Nat) : ∀ c ∈ m.erase a, c.1 ≠ a := by
  intro c hc
  simpa using (List.mem_filter.mp hc).2

/-- A read after a write: the value written at that address, what was there before everywhere else. It holds of every
list, in canonical form or not. -/
theorem Memory.read_write (m : Memory) (a b : Nat) (v : Byte) :
    (m.write a v).read b = if a = b then v else m.read b := by
  unfold Memory.write
  split
  · next h => subst h; exact Memory.read_erase m a b
  · rw [Memory.read_insert _ _ _ _ (Memory.erase_unlisted m a), Memory.read_erase]
    split <;> rfl

@[simp] theorem Memory.read_write_self (m : Memory) (a : Nat) (v : Byte) : (m.write a v).read a = v := by
  simp [Memory.read_write]

@[simp] theorem Memory.read_write_of_ne (m : Memory) (a b : Nat) (v : Byte) (h : a ≠ b) :
    (m.write a v).read b = m.read b := by
  simp [Memory.read_write, h]

/-! ### The canonical form -/

theorem Memory.wf_nil : Memory.wf [] := by simp [Memory.wf]

theorem Memory.wf_erase {m : Memory} (h : m.wf) (a : Nat) : (m.erase a).wf :=
  ⟨h.1.sublist List.filter_sublist, fun c hc => h.2 c (List.mem_filter.mp hc).1⟩

theorem Memory.mem_insert {m : Memory} {a : Nat} {v : Byte} {c : Host.Cell} (h : c ∈ m.insert a v) :
    c = (a, v) ∨ c ∈ m := by
  induction m with
  | nil => simpa [Memory.insert] using h
  | cons d m ih =>
    obtain ⟨k, w⟩ := d
    simp only [Memory.insert] at h
    split at h
    · simpa using h
    · rcases List.mem_cons.mp h with rfl | h
      · simp
      · rcases ih h with rfl | h <;> simp [*]

theorem Memory.rising_insert {m : Memory} {a : Nat} {v : Byte} (h : m.Pairwise (fun c d => c.1 < d.1))
    (hu : ∀ c ∈ m, c.1 ≠ a) : (m.insert a v).Pairwise (fun c d => c.1 < d.1) := by
  induction m with
  | nil => simp [Memory.insert]
  | cons d m ih =>
    obtain ⟨k, w⟩ := d
    obtain ⟨hd, hm⟩ := List.pairwise_cons.mp h
    have hk : k ≠ a := hu (k, w) (by simp)
    simp only [Memory.insert]
    split
    · next hlt =>
      refine List.pairwise_cons.mpr ⟨fun c hc => ?_, h⟩
      rcases List.mem_cons.mp hc with rfl | hc
      · exact hlt
      · exact Nat.lt_trans hlt (hd c hc)
    · next hge =>
      refine List.pairwise_cons.mpr ⟨fun c hc => ?_, ih hm fun c hc => hu c (by simp [hc])⟩
      rcases Memory.mem_insert hc with rfl | hc
      · show k < a; omega
      · exact hd c hc

/-- A write below the memory's size keeps the canonical form. -/
theorem Memory.wf_write {m : Memory} (h : m.wf) {a : Nat} (ha : a < Config.memSize) (v : Byte) :
    (m.write a v).wf := by
  unfold Memory.write
  split
  · exact Memory.wf_erase h a
  · next hv =>
    refine ⟨Memory.rising_insert (Memory.wf_erase h a).1 (Memory.erase_unlisted m a), fun c hc => ?_⟩
    rcases Memory.mem_insert hc with rfl | hc
    · exact ⟨ha, hv⟩
    · exact (Memory.wf_erase h a).2 c hc

theorem Memory.wf_store {m : Memory} (h : m.wf) (a : Nat) (bs : List Byte) : (Memory.store m a bs).wf := by
  induction bs generalizing m a with
  | nil => exact h
  | cons b bs ih =>
    unfold Memory.store
    split
    · next ha => exact ih (Memory.wf_write h ha b) _
    · exact ih h _

/-- What a byte reads as after a store: the stored byte inside the image, what was there before outside. -/
theorem Memory.read_store (m : Memory) (a : Nat) (bs : List Byte) (b : Nat) (hb : b < Config.memSize) :
    (Memory.store m a bs).read b = if a ≤ b then (bs[b - a]?).getD (m.read b) else m.read b := by
  induction bs generalizing m a with
  | nil => simp [Memory.store]
  | cons v bs ih =>
    unfold Memory.store
    rw [ih]
    by_cases h1 : a + 1 ≤ b
    · have h2 : a ≤ b := by omega
      have h3 : b - a = (b - (a + 1)) + 1 := by omega
      have h4 : a ≠ b := by omega
      rw [if_pos h1, if_pos h2, h3, List.getElem?_cons_succ]
      split <;> simp [h4]
    · rw [if_neg h1]
      by_cases h2 : a = b
      · subst h2; simp [hb]
      · have h3 : ¬ a ≤ b := by omega
        rw [if_neg h3]
        split <;> simp [h2]

/-! ### The canonical form is canonical -/

/-- A listed cell of a memory in canonical form reads as itself. -/
theorem Memory.read_of_mem {m : Memory} (h : m.wf) {c : Host.Cell} (hc : c ∈ m) : m.read c.1 = c.2 := by
  obtain ⟨hr, hb⟩ := h
  induction m with
  | nil => simp at hc
  | cons d m ih =>
    obtain ⟨hd, hm⟩ := List.pairwise_cons.mp hr
    rcases List.mem_cons.mp hc with rfl | hc
    · simp [Memory.read_cons]
    · have : d.1 ≠ c.1 := Nat.ne_of_lt (hd c hc)
      rw [Memory.read_cons, if_neg this]
      exact ih hc hm fun e he => hb e (by simp [he])

/-- An entry of one memory in canonical form is an entry of another that reads the same. -/
theorem Memory.mem_of_read_eq {m n : Memory} (hm : m.wf) (h : ∀ a, m.read a = n.read a) {c : Host.Cell}
    (hc : c ∈ m) : c ∈ n := by
  by_contra hn
  have h1 : n.read c.1 = c.2 := (h c.1).symm.trans (Memory.read_of_mem hm hc)
  have h2 : ∃ d ∈ n, d.1 = c.1 := by
    by_contra h3
    have : n.read c.1 = Config.memReset := Memory.read_of_unlisted fun d hd e => h3 ⟨d, hd, e⟩
    exact (hm.2 c hc).2 (h1.symm.trans this)
  clear hm h hc
  induction n with
  | nil => simp at h2
  | cons d n ih =>
    rw [Memory.read_cons] at h1
    split at h1
    · next e => exact hn (by rw [show d = c from Prod.ext e h1]; simp)
    · next e =>
      refine ih (fun hx => hn (by simp [hx])) h1 ?_
      obtain ⟨f, hf, hfe⟩ := h2
      rcases List.mem_cons.mp hf with rfl | hf
      · exact absurd hfe e
      · exact ⟨f, hf, hfe⟩

end Sys2Proof.Machine
end

