-- ==== Sys2Proof/Laws/Ops.lean ====
section
/-! SUPPORT. One lemma per shared operation that says everything it can do. -/

namespace Sys2Proof.Machine

/-! ### Checks and accesses -/

/-- An operand byte of at most 7 names its register. -/
theorem checkReg_of_le {i : Byte} (h : i.toNat ≤ 7) : checkReg i = .ok ⟨i.toNat, by omega⟩ := by
  have : i.toNat < Config.numRegs := by simp only [Config.numRegs]; omega
  simp [checkReg, this]

/-- An operand byte above 7 raises `OutOfBounds(register, i)`. -/
theorem checkReg_of_gt {i : Byte} (h : 7 < i.toNat) : checkReg i = .error (.outOfBounds .register i.toNat) := by
  have : ¬ i.toNat < Config.numRegs := by simp only [Config.numRegs]; omega
  simp [checkReg, this]

/-- Everything a register check can answer. -/
theorem checkReg_cases (i : Byte) :
    (∃ r : Fin 8, r.val = i.toNat ∧ checkReg i = .ok r) ∨
      (7 < i.toNat ∧ checkReg i = .error (.outOfBounds .register i.toNat)) := by
  by_cases h : i.toNat ≤ 7
  · exact .inl ⟨⟨i.toNat, by omega⟩, rfl, checkReg_of_le h⟩
  · exact .inr ⟨by omega, checkReg_of_gt (by omega)⟩

theorem memRead_of_lt (s : State) {a : Nat} (h : a < 256) : memRead s a = .ok (s.mem.read a) := by
  simp [memRead, Config.memSize, h]

theorem memRead_of_ge (s : State) {a : Nat} (h : 256 ≤ a) : memRead s a = .error (.outOfBounds .memory a) := by
  simp [memRead, Config.memSize, Nat.not_lt.mpr h]

theorem memWrite_of_lt (s : State) {a : Nat} (v : Nat) (h : a < 256) :
    memWrite a v s = .ok { s with mem := s.mem.write a (wrap8 v) } := by
  simp [memWrite, Config.memSize, h]

theorem memWrite_of_ge (s : State) {a : Nat} (v : Nat) (h : 256 ≤ a) :
    memWrite a v s = .error (.outOfBounds .memory a) := by
  simp [memWrite, Config.memSize, Nat.not_lt.mpr h]

theorem regRead_of_checkReg {s : State} {i : Byte} {r : Fin 8} (h : checkReg i = .ok r) :
    regRead s i = .ok (s.reg r) := by
  simp [regRead, h, bind, Except.bind]

theorem regWrite_of_checkReg {s : State} {i : Byte} {r : Fin 8} (v : Nat) (h : checkReg i = .ok r) :
    regWrite i v s = .ok (s.setReg r v) := by
  simp [regWrite, h, bind, Except.bind]

theorem regRead_of_gt {s : State} {i : Byte} (h : 7 < i.toNat) :
    regRead s i = .error (.outOfBounds .register i.toNat) := by
  simp [regRead, checkReg_of_gt h, bind, Except.bind]

theorem regWrite_of_gt {s : State} {i : Byte} (v : Nat) (h : 7 < i.toNat) :
    regWrite i v s = .error (.outOfBounds .register i.toNat) := by
  simp [regWrite, checkReg_of_gt h, bind, Except.bind]

/-! ### The end of an instruction -/

@[simp] theorem retire_ok (op : Opcode) (s t : State) : retire op s (.ok t) = .next (t.advance op) := rfl

@[simp] theorem retire_error (op : Opcode) (s : State) (c : Cause) :
    retire op s (.error c) = .next (s.raise (some op.byte) c) := rfl

/-- Everything the end of an instruction can answer: the body's state with pc advanced, or the state before the
body with the fault status written. -/
theorem retire_next {op : Opcode} {s t : State} {body : Except Cause State} (h : retire op s body = .next t) :
    (∃ u, body = .ok u ∧ t = u.advance op) ∨ (∃ c, body = .error c ∧ t = s.raise (some op.byte) c) := by
  cases body with
  | ok u => exact .inl ⟨u, rfl, by simpa using h.symm⟩
  | error c => exact .inr ⟨c, rfl, by simpa using h.symm⟩

/-- The end of an instruction is always a next state. -/
theorem retire_completes (op : Opcode) (s : State) (body : Except Cause State) : ∃ t, retire op s body = .next t := by
  cases body <;> simp

/-! ### The ALU -/

@[simp] theorem AluOp.ofTag_tag (op : AluOp) : AluOp.ofTag op.tag = .ok op := by cases op <;> rfl

/-- A supported tag with two valid indices. -/
theorem aluApply_ok {a b : Byte} {ra rb : Fin 8} (op : AluOp) (s : State) (ha : checkReg a = .ok ra)
    (hb : checkReg b = .ok rb) :
    aluApply op.tag a b s = .ok (s.setReg ra (aluResult op (s.reg ra) (s.reg rb)).toNat) := by
  simp [aluApply, ha, hb, bind, Except.bind]

theorem aluApply_bad_a {a : Byte} (b : Byte) (op : AluOp) (s : State) (ha : 7 < a.toNat) :
    aluApply op.tag a b s = .error (.outOfBounds .register a.toNat) := by
  simp [aluApply, checkReg_of_gt ha, bind, Except.bind]

theorem aluApply_bad_b {a b : Byte} (op : AluOp) (s : State) (ha : a.toNat ≤ 7) (hb : 7 < b.toNat) :
    aluApply op.tag a b s = .error (.outOfBounds .register b.toNat) := by
  simp [aluApply, checkReg_of_le ha, checkReg_of_gt hb, bind, Except.bind]

/-! ### The stack -/

/-- A push with SP not 0 moves SP down and writes below the old SP. -/
theorem pushByte_of_pos {s : State} (v : Byte) (h : s.sp ≠ 0) :
    pushByte v s = .ok { s.setSp (pushAddr s) with mem := s.mem.write (pushAddr s) v } := by
  have h0 : s.sp.toNat ≠ 0 := fun e => h (BitVec.eq_of_toNat_eq (by simpa using e))
  have hlt := s.sp.isLt
  have ha : pushAddr s < 256 := by unfold pushAddr; omega
  have hf : ¬ s.sp.toNat ≤ Config.spPushFloor := by simp only [Config.spPushFloor]; omega
  simp [pushByte, hf, memWrite_of_lt _ _ ha]

/-- A push with SP = 0 raises `StackOverflow`. -/
theorem pushByte_of_zero {s : State} (v : Byte) (h : s.sp = 0) : pushByte v s = .error (.stackOverflow s.sp) := by
  simp [pushByte, h, Config.spPushFloor]

/-- A pop within the limit reads at SP and moves SP up. -/
theorem popByte_of_le {limit : Nat} {s : State} (h : s.sp.toNat + 1 ≤ limit) :
    popByte limit s = .ok (s.mem.read (popAddr s), s.setSp (s.sp.toNat + 1)) := by
  have ha : popAddr s < 256 := s.sp.isLt
  simp [popByte, Nat.not_lt.mpr h, memRead_of_lt _ ha, bind, Except.bind]

/-- A pop beyond the limit raises `StackUnderflow`. -/
theorem popByte_of_gt {limit : Nat} {s : State} (h : limit < s.sp.toNat + 1) :
    popByte limit s = .error (.stackUnderflow s.sp) := by
  simp [popByte, h]

theorem popInto_of_le {limit : Nat} {s : State} {i : Byte} {r : Fin 8} (hr : checkReg i = .ok r)
    (h : s.sp.toNat + 1 ≤ limit) :
    popInto limit i s = .ok ((s.setSp (s.sp.toNat + 1)).setReg r (s.mem.read (popAddr s)).toNat) := by
  simp [popInto, hr, popByte_of_le h, bind, Except.bind]

theorem popInto_of_gt {limit : Nat} {s : State} {i : Byte} {r : Fin 8} (hr : checkReg i = .ok r)
    (h : limit < s.sp.toNat + 1) : popInto limit i s = .error (.stackUnderflow s.sp) := by
  simp [popInto, hr, popByte_of_gt h, bind, Except.bind]

theorem popInto_bad_reg {limit : Nat} {s : State} {i : Byte} (h : 7 < i.toNat) :
    popInto limit i s = .error (.outOfBounds .register i.toNat) := by
  simp [popInto, checkReg_of_gt h, bind, Except.bind]

end Sys2Proof.Machine
end

