-- ==== Sys2Proof/Laws/Step.lean ====
section
/-! SUPPORT. What a step can do. -/

namespace Sys2Proof.Machine

/-- The dispatcher state is Running iff the running flag is set and no fault is recorded. -/
theorem dispatcher_running_iff (s : State) :
    s.dispatcher = .running ↔ s.running = true ∧ s.fault.kind = .none := by
  unfold State.dispatcher
  by_cases hf : s.fault.kind = .none <;> cases hr : s.running <;> simp [hf]

@[simp] theorem dispatcher_start (s : State) : s.start.dispatcher = s.dispatcher := rfl

@[simp] theorem opcodeByte?_start (s : State) : s.start.opcodeByte? = s.opcodeByte? := rfl

theorem opcodeByte?_of_lt {s : State} (h : s.pc < 256) : s.opcodeByte? = some (s.mem.read s.pc) := by
  simp [State.opcodeByte?, memRead_of_lt s h]

theorem opcodeByte?_of_ge {s : State} (h : 256 ≤ s.pc) : s.opcodeByte? = none := by
  simp [State.opcodeByte?, memRead_of_ge s h]

/-- In Running a step is the fetched instruction's effect, or the fault of the fetch, on the started state. -/
theorem step_running {s : State} (h : s.dispatcher = .running) : step s = runFetched s.start := by
  simp [step, cycle, h]

theorem step_fetched {s : State} {i : Instr} (h : s.dispatcher = .running) (hf : fetch s.start = .ok i) :
    step s = exec i s.start := by
  simp [step_running h, runFetched, hf]

theorem step_fetch_fault {s : State} {c : Cause} (h : s.dispatcher = .running) (hf : fetch s.start = .error c) :
    step s = .next (s.start.raise s.opcodeByte? c) := by
  simp [step_running h, runFetched, hf]

/-- Everything a step that answers a next state can have done. -/
theorem step_next {s t : State} (h : step s = .next t) :
    s.dispatcher = .running ∧
      ((∃ i, fetch s.start = .ok i ∧ exec i s.start = .next t) ∨
        (∃ c, fetch s.start = .error c ∧ t = s.start.raise s.opcodeByte? c)) := by
  cases hd : s.dispatcher with
  | halted => simp [step, cycle, hd] at h
  | faulted => simp [step, cycle, hd] at h
  | running =>
    refine ⟨rfl, ?_⟩
    cases hf : fetch s.start with
    | ok i => exact .inl ⟨i, rfl, by rwa [step_fetched hd hf] at h⟩
    | error c => exact .inr ⟨c, rfl, by rw [step_fetch_fault hd hf] at h; simpa using h.symm⟩

/-- The bytes of an instruction that was fetched are in memory at pc, all below 256. -/
theorem fetch_ok {s : State} {i : Instr} (h : fetch s = .ok i) :
    ∀ k b, (encode i)[k]? = some b → s.pc + k < 256 ∧ s.mem.read (s.pc + k) = b := by
  intro k b hb
  have hk := decodeWith_ok h k b hb
  by_cases hlt : s.pc + k < 256
  · rw [memRead_of_lt s hlt] at hk
    exact ⟨hlt, by simpa using hk⟩
  · rw [memRead_of_ge s (by omega)] at hk
    simp at hk

/-- Instruction bytes in memory at pc are fetched as their instruction. -/
theorem fetch_of_bytes {s : State} (i : Instr)
    (h : ∀ k b, (encode i)[k]? = some b → s.pc + k < 256 ∧ s.mem.read (s.pc + k) = b) : fetch s = .ok i := by
  refine decodeWith_of_bytes i fun k b hb => ?_
  obtain ⟨hlt, hr⟩ := h k b hb
  rw [memRead_of_lt s hlt, hr]

/-- The fetch when the opcode byte has an entry whose bytes all lie below 256. -/
theorem fetch_of_width {s : State} {o : Opcode} (h : s.pc + o.width ≤ 256)
    (ho : Opcode.ofByte? (s.mem.read s.pc) = some o) : ∃ i, i.opcode = o ∧ fetch s = .ok i := by
  have hw : 1 ≤ o.width := by cases o <;> simp [Opcode.width, Opcode.format, Format.width]
  exact decodeWith_of_width (memRead_of_lt s (by omega)) ho fun k hk => ⟨_, memRead_of_lt s (by omega)⟩

/-- The fetch when the opcode byte has an entry whose bytes reach address 256. -/
theorem fetch_of_overrun {s : State} {o : Opcode} (h0 : s.pc < 256) (h : 256 < s.pc + o.width)
    (ho : Opcode.ofByte? (s.mem.read s.pc) = some o) : fetch s = .error (.outOfBounds .memory 256) := by
  have r0 : memRead s (s.pc + 0) = .ok (s.mem.read s.pc) := memRead_of_lt s h0
  have hw : o.width ≤ 3 := by cases o <;> simp [Opcode.width, Opcode.format, Format.width]
  by_cases h1 : s.pc + 1 < 256
  · have e : s.pc + 2 = 256 := by omega
    exact decodeWith_error_two r0 ho (by omega) (memRead_of_lt s h1) (e ▸ memRead_of_ge s (by omega))
  · have e : s.pc + 1 = 256 := by omega
    exact decodeWith_error_one r0 ho (by omega) (e ▸ memRead_of_ge s (by omega))

/-- The fetch when the opcode byte has no entry. -/
theorem fetch_of_unknown {s : State} (h0 : s.pc < 256) (ho : Opcode.ofByte? (s.mem.read s.pc) = none) :
    fetch s = .error (.unknownInstruction (s.mem.read s.pc)) :=
  decodeWith_unknown (memRead_of_lt s h0) ho

/-- The fetch when pc is above 255. -/
theorem fetch_of_ge {s : State} (h : 256 ≤ s.pc) : fetch s = .error (.outOfBounds .memory s.pc) :=
  decodeWith_error_zero (memRead_of_ge s h)

/-- Everything a fetch that fails can have met: the opcode fetch out of bounds, an opcode byte with no entry, or an
operand byte out of bounds at address 256. -/
theorem fetch_error {s : State} {c : Cause} (h : fetch s = .error c) :
    (256 ≤ s.pc ∧ c = .outOfBounds .memory s.pc) ∨
      (s.pc < 256 ∧ Opcode.ofByte? (s.mem.read s.pc) = none ∧ c = .unknownInstruction (s.mem.read s.pc)) ∨
      (s.pc < 256 ∧ (∃ o, Opcode.ofByte? (s.mem.read s.pc) = some o ∧ 256 < s.pc + o.width) ∧
        c = .outOfBounds .memory 256) := by
  by_cases h0 : s.pc < 256
  · cases ho : Opcode.ofByte? (s.mem.read s.pc) with
    | none => exact .inr (.inl ⟨h0, rfl, by simpa [fetch_of_unknown h0 ho] using h.symm⟩)
    | some o =>
      by_cases hw : s.pc + o.width ≤ 256
      · obtain ⟨i, -, hi⟩ := fetch_of_width hw ho
        simp [hi] at h
      · exact .inr (.inr ⟨h0, ⟨o, rfl, by omega⟩, by simpa [fetch_of_overrun h0 (by omega) ho] using h.symm⟩)
  · exact .inl ⟨by omega, by simpa [fetch_of_ge (s := s) (by omega)] using h.symm⟩

end Sys2Proof.Machine
end

