-- ==== Sys2Proof/Laws/Exec.lean ====
section
/-! SUPPORT. Everything each instruction can do, once per instruction: its completion and its faults. -/

namespace Sys2Proof.Machine

theorem regByte_toNat (r : Fin 8) : (regByte r).toNat = r.val := by
  simp [regByte]
  omega

/-- The operand byte of a register names it. -/
theorem checkReg_regByte (r : Fin 8) : checkReg (regByte r) = .ok r := by
  have h : (regByte r).toNat ≤ 7 := by rw [regByte_toNat]; omega
  simp only [checkReg_of_le h, regByte_toNat]

/-- An operand byte with a register's value is that register's operand byte. -/
theorem eq_regByte {b : Byte} {r : Fin 8} (h : r.val = b.toNat) : b = regByte r :=
  BitVec.eq_of_toNat_eq (by rw [regByte_toNat, h])

/-- The bytes of memory from pc up, one at a time. -/
theorem codeAt_getElem? (s : State) (k : Nat) (h : s.pc + k < 256) :
    (codeAt s)[k]? = some (s.mem.read (s.pc + k)) := by
  simp only [codeAt, List.getElem?_map, List.getElem?_range (show k < 256 - s.pc by omega), Option.map_some]

/-- Every instruction ends as a retirement under its own opcode. -/
theorem exec_retires (i : Instr) (s : State) : ∃ body, exec i s = retire i.opcode s body := by
  cases i
  case hlt => exact ⟨.ok s.stop, rfl⟩
  all_goals exact ⟨_, rfl⟩

/-- An instruction always answers a next state. -/
theorem exec_completes (i : Instr) (s : State) : ∃ t, exec i s = .next t := by
  obtain ⟨body, h⟩ := exec_retires i s
  rw [h]
  exact retire_completes _ _ _

theorem exec_ldi_cases (r imm : Byte) (s : State) :
    (∃ rf : Fin 8, rf.val = r.toNat ∧ exec (.ldi r imm) s = .next ((s.setReg rf imm.toNat).advance .ldi)) ∨
      (7 < r.toNat ∧ exec (.ldi r imm) s =
        .next (s.raise (some (Opcode.byte .ldi)) (.outOfBounds .register r.toNat))) := by
  rcases checkReg_cases r with ⟨rf, hv, hr⟩ | ⟨hgt, -⟩
  · exact .inl ⟨rf, hv, by simp [exec, execLdi, regWrite_of_checkReg _ hr, immediate]⟩
  · exact .inr ⟨hgt, by simp [exec, execLdi, regWrite_of_gt _ hgt]⟩

theorem exec_prn_cases (r : Byte) (s : State) :
    (∃ rf : Fin 8, rf.val = r.toNat ∧ exec (.prn r) s = .next ((s.emit (s.reg rf)).advance .prn)) ∨
      (7 < r.toNat ∧ exec (.prn r) s =
        .next (s.raise (some (Opcode.byte .prn)) (.outOfBounds .register r.toNat))) := by
  rcases checkReg_cases r with ⟨rf, hv, hr⟩ | ⟨hgt, -⟩
  · exact .inl ⟨rf, hv, by simp [exec, execPrn, regRead_of_checkReg hr, bind, Except.bind]⟩
  · exact .inr ⟨hgt, by simp [exec, execPrn, regRead_of_gt hgt, bind, Except.bind]⟩

theorem exec_hlt_eq (s : State) : exec .hlt s = .next (s.stop.advance .hlt) := rfl

theorem exec_mul_cases (a b : Byte) (s : State) :
    (∃ ra rb : Fin 8, ra.val = a.toNat ∧ rb.val = b.toNat ∧ exec (.mul a b) s =
        .next ((s.setReg ra (aluResult .mul (s.reg ra) (s.reg rb)).toNat).advance .mul)) ∨
      (7 < a.toNat ∧ exec (.mul a b) s =
        .next (s.raise (some (Opcode.byte .mul)) (.outOfBounds .register a.toNat))) ∨
      (a.toNat ≤ 7 ∧ 7 < b.toNat ∧ exec (.mul a b) s =
        .next (s.raise (some (Opcode.byte .mul)) (.outOfBounds .register b.toNat))) := by
  rcases checkReg_cases a with ⟨ra, ha, hra⟩ | ⟨hgt, -⟩
  · rcases checkReg_cases b with ⟨rb, hb, hrb⟩ | ⟨hgt, -⟩
    · exact .inl ⟨ra, rb, ha, hb, by simp [exec, execMul, aluApply_ok .mul s hra hrb]⟩
    · have hle : a.toNat ≤ 7 := by omega
      exact .inr (.inr ⟨hle, hgt, by simp [exec, execMul, aluApply_bad_b .mul s hle hgt]⟩)
  · exact .inr (.inl ⟨hgt, by simp [exec, execMul, aluApply_bad_a b .mul s hgt]⟩)

theorem exec_push_cases (r : Byte) (s : State) :
    (∃ rf : Fin 8, rf.val = r.toNat ∧ s.sp ≠ 0 ∧ exec (.push r) s =
        .next (State.advance { s.setSp (pushAddr s) with mem := s.mem.write (pushAddr s) (s.reg rf) } .push)) ∨
      (7 < r.toNat ∧ exec (.push r) s =
        .next (s.raise (some (Opcode.byte .push)) (.outOfBounds .register r.toNat))) ∨
      (r.toNat ≤ 7 ∧ s.sp = 0 ∧ exec (.push r) s =
        .next (s.raise (some (Opcode.byte .push)) (.stackOverflow s.sp))) := by
  rcases checkReg_cases r with ⟨rf, hv, hr⟩ | ⟨hgt, -⟩
  · by_cases h0 : s.sp = 0
    · refine .inr (.inr ⟨by omega, h0, ?_⟩)
      simp only [exec, execPush, regRead_of_checkReg hr, bind, Except.bind, pushByte_of_zero _ h0, retire_error]
    · refine .inl ⟨rf, hv, h0, ?_⟩
      simp only [exec, execPush, regRead_of_checkReg hr, bind, Except.bind, pushByte_of_pos _ h0, retire_ok]
  · exact .inr (.inl ⟨hgt, by simp [exec, execPush, regRead_of_gt hgt, bind, Except.bind]⟩)

theorem exec_pop_cases (r : Byte) (s : State) :
    (∃ rf : Fin 8, rf.val = r.toNat ∧ s.sp.toNat + 1 ≤ popLimit ∧ exec (.pop r) s =
        .next (((s.setSp (s.sp.toNat + 1)).setReg rf (s.mem.read (popAddr s)).toNat).advance .pop)) ∨
      (7 < r.toNat ∧ exec (.pop r) s =
        .next (s.raise (some (Opcode.byte .pop)) (.outOfBounds .register r.toNat))) ∨
      (r.toNat ≤ 7 ∧ popLimit < s.sp.toNat + 1 ∧ exec (.pop r) s =
        .next (s.raise (some (Opcode.byte .pop)) (.stackUnderflow s.sp))) := by
  rcases checkReg_cases r with ⟨rf, hv, hr⟩ | ⟨hgt, -⟩
  · by_cases hl : s.sp.toNat + 1 ≤ popLimit
    · exact .inl ⟨rf, hv, hl, by simp [exec, execPop, popInto_of_le hr hl]⟩
    · have hl : popLimit < s.sp.toNat + 1 := by omega
      exact .inr (.inr ⟨by omega, hl, by simp [exec, execPop, popInto_of_gt hr hl]⟩)
  · exact .inr (.inl ⟨hgt, by simp [exec, execPop, popInto_bad_reg hgt]⟩)

/-- The causes an instruction can raise: a register operand above 7, a push at SP 0, a pop above the limit. -/
def CauseOf (i : Instr) (s : State) (c : Cause) : Prop :=
  (∃ d ∈ i.regOperands, 7 < d.toNat ∧ c = .outOfBounds .register d.toNat) ∨
    (∃ r, i = .push r ∧ s.sp = 0 ∧ c = .stackOverflow s.sp) ∨
    (∃ r, i = .pop r ∧ popLimit < s.sp.toNat + 1 ∧ c = .stackUnderflow s.sp)

/-- What a completed instruction leaves outside the registers. -/
structure Completed (i : Instr) (s t : State) : Prop where
  fault : t.fault = s.fault
  phase : t.phase = s.phase
  pc : t.pc = s.pc + i.opcode.advance
  running : t.running = (if i = .hlt then false else s.running)
  mem : t.mem = s.mem ∨ ∃ r v, i = .push r ∧ pushAddr s < 256 ∧ t.mem = s.mem.write (pushAddr s) v
  out : t.out = s.out ∨ ∃ r : Fin 8, i = .prn (regByte r) ∧ t.out = s.out ++ [s.reg r]

/-- Everything an instruction can do, outside the registers: it completes, or it takes one of its faults. -/
theorem exec_next {i : Instr} {s t : State} (h : exec i s = .next t) :
    (∃ c, t = s.raise (some i.opcode.byte) c ∧ CauseOf i s c) ∨ Completed i s t := by
  cases i with
  | ldi r imm =>
    rcases exec_ldi_cases r imm s with ⟨_, _, e⟩ | ⟨hd, e⟩ <;> rw [e] at h <;> injection h with h <;> subst h
    · exact .inr ⟨rfl, rfl, rfl, rfl, .inl rfl, .inl rfl⟩
    · exact .inl ⟨_, rfl, .inl ⟨r, by simp [Instr.regOperands], hd, rfl⟩⟩
  | prn r =>
    rcases exec_prn_cases r s with ⟨rf, hv, e⟩ | ⟨hd, e⟩ <;> rw [e] at h <;> injection h with h <;> subst h
    · exact .inr ⟨rfl, rfl, rfl, rfl, .inl rfl, .inr ⟨rf, by rw [eq_regByte hv], rfl⟩⟩
    · exact .inl ⟨_, rfl, .inl ⟨r, by simp [Instr.regOperands], hd, rfl⟩⟩
  | hlt =>
    rw [exec_hlt_eq] at h
    injection h with h
    subst h
    exact .inr ⟨rfl, rfl, rfl, rfl, .inl rfl, .inl rfl⟩
  | mul a b =>
    rcases exec_mul_cases a b s with ⟨_, _, _, _, e⟩ | ⟨hd, e⟩ | ⟨_, hd, e⟩ <;> rw [e] at h <;>
      injection h with h <;> subst h
    · exact .inr ⟨rfl, rfl, rfl, rfl, .inl rfl, .inl rfl⟩
    · exact .inl ⟨_, rfl, .inl ⟨a, by simp [Instr.regOperands], hd, rfl⟩⟩
    · exact .inl ⟨_, rfl, .inl ⟨b, by simp [Instr.regOperands], hd, rfl⟩⟩
  | push r =>
    rcases exec_push_cases r s with ⟨rf, _, _, e⟩ | ⟨hd, e⟩ | ⟨_, h0, e⟩ <;> rw [e] at h <;>
      injection h with h <;> subst h
    · have hlt : pushAddr s < 256 := by
        have := s.sp.isLt
        unfold pushAddr
        omega
      exact .inr ⟨rfl, rfl, rfl, rfl, .inr ⟨r, s.reg rf, rfl, hlt, rfl⟩, .inl rfl⟩
    · exact .inl ⟨_, rfl, .inl ⟨r, by simp [Instr.regOperands], hd, rfl⟩⟩
    · exact .inl ⟨_, rfl, .inr (.inl ⟨r, rfl, h0, rfl⟩)⟩
  | pop r =>
    rcases exec_pop_cases r s with ⟨_, _, _, e⟩ | ⟨hd, e⟩ | ⟨_, hl, e⟩ <;> rw [e] at h <;>
      injection h with h <;> subst h
    · exact .inr ⟨rfl, rfl, rfl, rfl, .inl rfl, .inl rfl⟩
    · exact .inl ⟨_, rfl, .inl ⟨r, by simp [Instr.regOperands], hd, rfl⟩⟩
    · exact .inl ⟨_, rfl, .inr (.inr ⟨r, rfl, hl, rfl⟩)⟩

end Sys2Proof.Machine
end

