-- ==== Sys2Proof/Laws/PerInstr.lean ====
section
/-! SUPPORT. The per-instruction family EncodedWidth: an encoding has the width of its opcode's row and begins with the
opcode's byte (30_encoding.md R61, R64, R69). -/

namespace Sys2Proof.Laws.EncodedWidth

/-- The encoding of an instruction is as long as the opcode table says and starts with the table's opcode byte, which
the map gives back. -/
def Statement (i : Instr) : Prop :=
  (encode i).length = i.opcode.width ∧ (encode i).head? = some i.opcode.byte ∧
    Opcode.ofByte? i.opcode.byte = some i.opcode

theorem ldi (r imm : Byte) : Statement (.ldi r imm) := ⟨rfl, rfl, rfl⟩

theorem prn (r : Byte) : Statement (.prn r) := ⟨rfl, rfl, rfl⟩

theorem hlt : Statement .hlt := ⟨rfl, rfl, rfl⟩

theorem mul (a b : Byte) : Statement (.mul a b) := ⟨rfl, rfl, rfl⟩

theorem push (r : Byte) : Statement (.push r) := ⟨rfl, rfl, rfl⟩

theorem pop (r : Byte) : Statement (.pop r) := ⟨rfl, rfl, rfl⟩

end Sys2Proof.Laws.EncodedWidth
end

