-- ==== Sys2Proof/Tests/Slice0.lean ====
section
/-! SUPPORT. The model's own tests: expected results are the vectors of 95_test_vectors.md or are written out from the
rule named; and the witnesses that the statements' hypotheses can be met. -/

namespace Sys2Proof.Tests

open Sys2Proof Machine

/-! ### Helpers -/

/-- The reset state with bytes at an address and pc there. -/
def codeState (a : Nat) (bs : List Byte) : State := { State.reset with mem := Memory.store [] a bs, pc := a }

/-- The reset state with a register changed. -/
def withReg (r : Fin 8) (v : Nat) (s : State) : State := s.setReg r v

/-- The next state of an outcome, if it is one. -/
def nextOf (o : Host.Outcome State Fault Refusal) : Option State :=
  match o with
  | .next t => some t
  | .fault _ => none
  | .refused _ => none

/-- A field of the state after one step. -/
def after {α : Type} (s : State) (f : State → α) : Option α := (nextOf (step s)).map f

/-! ### WellFormed: one ill-formed term for each check -/

theorem test_wf_refuses_ldi_register : (Instr.ldi 8 1).wellFormed = false := by decide
theorem test_wf_refuses_prn_register : (Instr.prn 9).wellFormed = false := by decide
theorem test_wf_refuses_mul_first : (Instr.mul 8 0).wellFormed = false := by decide
theorem test_wf_refuses_mul_second : (Instr.mul 0 255).wellFormed = false := by decide
theorem test_wf_refuses_push_register : (Instr.push 8).wellFormed = false := by decide
theorem test_wf_refuses_pop_register : (Instr.pop 128).wellFormed = false := by decide
theorem test_wf_accepts_last_register : (Instr.ldi 7 255).wellFormed = true ∧ Instr.hlt.wellFormed = true := by decide

/-! ### Decoding: words written out bit by bit from 30_encoding.md R61 and R64 -/

theorem test_decode_ldi : decode [0b10000010, 0b00000011, 0b11111111] = .ok (.ldi 3 255, []) := by decide
theorem test_decode_prn : decode [0b01000111, 0b00000111, 0b00000001] = .ok (.prn 7, [1]) := by decide
theorem test_decode_hlt : decode [0b00000001] = .ok (.hlt, []) := by decide
theorem test_decode_mul : decode [0b10100010, 0b00000010, 0b00000101] = .ok (.mul 2 5, []) := by decide
theorem test_decode_push : decode [0b01000101, 0b00000110] = .ok (.push 6, []) := by decide
theorem test_decode_pop : decode [0b01000110, 0b00001001] = .ok (.pop 9, []) := by decide
/-- R66: 0xA0, the wider LS-8's ADD, has no entry here. -/
theorem test_decode_no_add : decode [0xA0, 0, 1] = .error (.unknownOpcode 0xA0) := by decide
/-- V3: a byte that fits the operand-count pattern has no entry. -/
theorem test_decode_no_pattern : decode [0x02] = .error (.unknownOpcode 0x02) := by decide
theorem test_decode_cut_off : decode [0x82, 0] = .error (.truncated 2) := by decide
/-- The table's numbering: byte 1 is bits 15..8 and byte 2 bits 23..16. -/
theorem test_table_word : decodeTableWord 24 0xFF0382 = some (.ldi 3 255) := by decide
theorem test_table_word_short : decodeTableWord 8 0xFF0382 = some (.ldi 0 0) := by decide

/-! ### An opcode-table word runs as the first instruction after reset -/

theorem test_fetch_word_ldi : after (State.reset.withFetchWord 24 0x2A0082) (·.reg 0) = some 42 := by decide
theorem test_fetch_word_all_rows :
    (after (State.reset.withFetchWord 8 0x82) (·.pc), after (State.reset.withFetchWord 8 0x47) (·.pc),
      after (State.reset.withFetchWord 8 0x01) (·.running), after (State.reset.withFetchWord 8 0xA2) (·.pc),
      after (State.reset.withFetchWord 8 0x45) (·.pc), after (State.reset.withFetchWord 8 0x46) (·.pc)) =
    (some 3, some 2, some false, some 3, some 2, some 2) := by decide

/-! ### Steps -/

/-- V1. -/
theorem test_reset_memory_faults :
    after State.reset (·.fault) = some ⟨.unknownInstruction, 0, some 0, .none, 0⟩ := by decide
/-- V4, its last step: pc 256. -/
theorem test_fetch_at_256 :
    after { State.reset with pc := 256 } (fun t => (t.fault, t.pc, t.running)) =
      some (⟨.outOfBounds, 256, none, .memory, 256⟩, 256, true) := by decide
/-- V10. -/
theorem test_ldi : after (codeState 0 [0x82, 3, 0xFF]) (fun t => (t.reg 3, t.pc)) = some (255, 3) := by decide
/-- V17: the operand fetch fails before the register check. -/
theorem test_ldi_fetch_before_check :
    after (codeState 254 [0x82, 8]) (·.fault) = some ⟨.outOfBounds, 254, some 0x82, .memory, 256⟩ := by decide
/-- V20. -/
theorem test_prn_sp : after (codeState 0 [0x47, 7]) (fun t => (t.out, t.pc)) = some ([244], 2) := by decide
/-- V21. -/
theorem test_prn_bad_register :
    after (codeState 0 [0x47, 9]) (fun t => (t.fault, t.out)) =
      some (⟨.outOfBounds, 0, some 0x47, .register, 9⟩, []) := by decide
/-- V31. -/
theorem test_hlt : after (codeState 0 [1, 0x47, 0]) (fun t => (t.running, t.pc, t.out)) = some (false, 0, []) := by
  decide
/-- HLT at address 255 halts normally (R102). -/
theorem test_hlt_at_255 : after (codeState 255 [1]) (fun t => (t.dispatcher, t.pc)) = some (.halted, 255) := by decide
/-- V51: the same register twice squares. -/
theorem test_mul_squares : after (withReg 2 15 (codeState 0 [0xA2, 2, 2])) (fun t => (t.reg 2, t.pc)) = some (225, 3) := by
  decide
/-- V53: the stack pointer is multiplied in place and wraps. -/
theorem test_mul_sp_wraps : after (withReg 1 2 (codeState 0 [0xA2, 7, 1])) (·.sp) = some 0xE8 := by decide
/-- V61: PUSH R7 pushes the old SP. -/
theorem test_push_sp :
    after (codeState 0 [0x45, 7]) (fun t => (t.mem.read 0xF3, t.sp, t.pc)) = some (0xF4, 0xF3, 2) := by decide
/-- V62. -/
theorem test_push_overflow :
    after (withReg 7 0 (codeState 3 [0x45, 0])) (fun t => (t.fault, t.sp, t.pc)) =
      some (⟨.stackOverflow, 3, some 0x45, .none, 0⟩, 0, 3) := by decide
/-- V75: POP R7 leaves the popped byte in SP. -/
theorem test_pop_sp :
    after (withReg 7 0xF3 { codeState 0 [0x46, 7] with mem := Memory.store (Memory.store [] 0 [0x46, 7]) 0xF3 [0x10] })
      (fun t => (t.sp, t.pc)) = some (0x10, 2) := by decide
/-- V73. -/
theorem test_pop_underflow :
    after (withReg 7 0xF5 (codeState 0 [0x46, 0])) (fun t => (t.fault, t.sp)) =
      some (⟨.stackUnderflow, 0, some 0x46, .none, 0xF5⟩, 0xF5) := by decide
/-- V72: under the limit 0xF4 a pop from the empty stack underflows. -/
theorem test_pop_other_limit : popInto 0xF4 0 State.reset = .error (.stackUnderflow 0xF4) := by rfl

/-! ### The ALU -/

/-- V40, V44, V45. -/
theorem test_alu_wraps :
    (aluResult .add 200 100, aluResult .mul 16 16, aluResult .mul 255 255) = (44, 0, 1) := by decide
/-- V50. -/
theorem test_alu_unsupported : aluApply 0b11 0 0 State.reset = .error (.unsupportedAluOperation 3) := by rfl

/-! ### The host interface -/

/-- V83. -/
theorem test_load_wraps : (load [300] State.reset).2.mem.read 0 = 44 := by decide
/-- V82. -/
theorem test_load_twice : (load [1] (load [2] State.reset).2).1 = .alreadyLoaded := by decide
/-- V80. -/
theorem test_load_too_long : load (List.replicate 257 1) State.reset = (.outOfBounds 256, State.reset) :=
  if_pos (by rw [List.length_replicate]; decide)
/-- V84. -/
theorem test_load_after_run : (load [1] (run State.reset).2).1 = .alreadyLoaded := by decide

/-- R24, R178: the valid bit and the byte of fault.opcode on the nine bits of debug_data; the largest pc. -/
theorem test_debug_data_width :
    debugRead .faultOpcode { State.reset with fault := ⟨.stackOverflow, 0, some 0x45, .none, 0⟩ } = .value 0b101000101 ∧
      debugRead .pc { State.reset with pc := 256 } = .value 0b100000000 := by decide

/-! ### Witnesses: the hypotheses of each statement can be met, each clause at a boundary -/

theorem witness_DecodedBytesAreTheEncoding : decode [0x45, 255, 9] = .ok (.push 255, [9]) := by decide

theorem witness_LengthIsTheOpcodesOwn :
    (Opcode.width .ldi ≤ ([8, 1] : List Byte).length + 1) ∧ (([8] : List Byte).length + 1 < Opcode.width .ldi) := by decide

theorem witness_StepRunsTheDecodedInstruction :
    (codeState 255 [1]).dispatcher = .running ∧ decode (codeAt (codeState 255 [1])) = .ok (.hlt, []) := by decide

theorem witness_OpcodeFetchAbove255Faults :
    ({ State.reset with pc := 256 } : State).dispatcher = .running ∧ (codeState 255 [1]).pc ≤ 255 := by decide

theorem witness_UnknownOpcodeFaults_fetch :
    (codeState 255 [0xA0]).dispatcher = .running ∧ (codeState 255 [0xA0]).pc ≤ 255 ∧
      (codeState 255 [0xA0]).mem.read 255 ∉
        ([0b10000010, 0b01000111, 0b00000001, 0b10100010, 0b01000101, 0b01000110] : List Byte) := by decide

theorem witness_UnknownOpcodeFaults_exec :
    exec .hlt State.reset = .next { State.reset with running := false } ∧
      State.reset.fault.kind ≠ .unknownInstruction := ⟨rfl, by decide⟩

theorem witness_OperandFetchAbove255Faults_first :
    (codeState 255 [0x47]).dispatcher = .running ∧ (codeState 255 [0x47]).pc ≤ 255 ∧
      (codeState 255 [0x47]).mem.read 255 = Opcode.byte .prn ∧ 256 < 255 + Opcode.width .prn := by decide

theorem witness_OperandFetchAbove255Faults_second :
    (codeState 254 [0x82, 9]).dispatcher = .running ∧ (codeState 254 [0x82, 9]).pc ≤ 255 ∧
      (codeState 254 [0x82, 9]).mem.read 254 = Opcode.byte .ldi ∧ 256 < 254 + Opcode.width .ldi := by decide

theorem witness_TerminalStatesStay :
    ({ State.reset with running := false } : State).dispatcher = .halted ∧
      ({ State.reset with fault := ⟨.stackOverflow, 0, some 0x45, .none, 0⟩ } : State).dispatcher = .faulted := by decide

theorem witness_HltClearsRunning : State.reset.fault.kind = .none := by decide

theorem witness_PushStoresTheOldValue : (withReg 7 1 State.reset).sp ≠ 0 := by decide

theorem witness_PopLoadsFromTheStack : State.reset.sp.toNat ≤ 0xF4 ∧ (7 : Fin 8) = Config.spIndex ∧
    (0 : Fin 8) ≠ Config.spIndex := by decide

theorem witness_RegisterIndexAbove7Faults_bad :
    (Instr.mul 8 9).regOperands.find? (fun b => decide (7 < b.toNat)) = some 8 ∧
      (Instr.mul 7 255).regOperands.find? (fun b => decide (7 < b.toNat)) = some 255 := by decide

theorem witness_RegisterIndexAbove7Faults_good :
    (Instr.prn 7).wellFormed = true ∧
      exec (.prn 7) State.reset = .next { State.reset with out := [0xF4], pc := 2 } ∧
      State.reset.fault.space ≠ .register := ⟨by decide, rfl, by decide⟩

theorem witness_PushAtZeroOverflows : (withReg 7 0 State.reset).sp = 0 := by decide

theorem witness_PopAboveLimitUnderflows :
    0xF4 < (withReg 7 0xF5 State.reset).sp.toNat ∧ State.reset.sp = 0xF4 ∧ (0xF4 ≤ 0xF4 ∧ 0xF4 ≤ 0xFF) ∧
      (0xF4 ≤ 0xFF ∧ 0xFF ≤ 0xFF) := by decide

theorem witness_StackAccessesStayInMemory :
    ∃ t u, exec (.push (regByte 0)) State.reset = .next t ∧ exec (.pop (regByte 0)) State.reset = .next u :=
  ⟨_, _, rfl, rfl⟩

theorem witness_FaultKindsByInstruction :
    State.reset.fault.kind = .none ∧
      (∃ t, exec .hlt State.reset = .next t) ∧ (∃ t, exec (.ldi 8 0) State.reset = .next t) ∧
      (∃ t, exec (.prn 8) State.reset = .next t) ∧ (∃ t, exec (.mul 0 8) State.reset = .next t) ∧
      (∃ t, exec (.push 8) State.reset = .next t) ∧ (∃ t, exec (.pop 8) State.reset = .next t) :=
  ⟨rfl, ⟨_, rfl⟩, ⟨_, rfl⟩, ⟨_, rfl⟩, ⟨_, rfl⟩, ⟨_, rfl⟩, ⟨_, rfl⟩⟩

theorem witness_UnsupportedAluTagsFault :
    ((0b10 : BitVec 2) = 0b10 ∨ (0b10 : BitVec 2) = 0b11) ∧ ((0b11 : BitVec 2) = 0b10 ∨ (0b11 : BitVec 2) = 0b11) := by
  decide

theorem witness_PushThenPopRestores :
    (1 ≤ (withReg 7 1 State.reset).sp.toNat ∧ (withReg 7 1 State.reset).sp.toNat ≤ popLimit) ∧
      (1 ≤ (withReg 7 0xF5 State.reset).sp.toNat ∧ (withReg 7 0xF5 State.reset).sp.toNat ≤ popLimit) := by decide

/-- At the boundary: 252 is the last pc for which a PUSH can write at pc + 2, since SP is at most 255. -/
theorem witness_PushedHltIsFetched :
    let s := withReg 7 255 (withReg 0 1 (codeState 252 [0x45, 0]))
    s.dispatcher = .running ∧ s.pc + 2 ≤ 255 ∧ s.mem.read s.pc = 0x45 ∧ s.mem.read (s.pc + 1) = regByte 0 ∧
      s.sp.toNat = s.pc + 3 ∧ s.reg 0 = 0x01 := by decide

theorem witness_RegistersWrittenByInstruction :
    (∃ t, exec (.ldi 3 9) State.reset = .next t ∧ t.reg 3 ≠ State.reset.reg 3) ∧
      (∃ t, exec (.mul 7 7) State.reset = .next t ∧ t.reg 7 ≠ State.reset.reg 7) ∧
      (∃ t, exec (.push 0) State.reset = .next t ∧ t.reg 7 ≠ State.reset.reg 7) ∧
      (∃ t, exec (.pop 0) State.reset = .next t ∧ t.reg 7 ≠ State.reset.reg 7) :=
  ⟨⟨_, rfl, by decide⟩, ⟨_, rfl, by decide⟩, ⟨_, rfl, by decide⟩, ⟨_, rfl, by decide⟩⟩

theorem witness_OnlyPushWritesMemory :
    (∃ t, exec (.push 7) State.reset = .next t ∧ t.mem.read 0xF3 ≠ State.reset.mem.read 0xF3) ∧
      (∃ t, step (codeState 254 [0x45, 7]) = .next t ∧
        t.mem.read 0xF3 ≠ (codeState 254 [0x45, 7]).mem.read 0xF3) :=
  ⟨⟨_, rfl, by decide⟩, ⟨_, rfl, by decide⟩⟩

theorem witness_OnlyPrnWritesOutput_exec :
    ((∃ t, exec .hlt State.reset = .next t) ∧ ∀ r, Instr.hlt ≠ .prn r) ∧
      (∃ t, exec (.prn 7) State.reset = .next t ∧ t.out = [0xF4]) ∧
      (∃ t, exec (.prn 8) State.reset = .next t ∧ t.out = []) :=
  ⟨⟨⟨_, rfl⟩, by simp⟩, ⟨_, rfl, by decide⟩, ⟨_, rfl, by decide⟩⟩

/-- The last place a PRN completes, and the one where it faults. -/
theorem witness_OnlyPrnWritesOutput_step :
    (∃ t, step (codeState 254 [0x47, 7]) = .next t ∧ t.fault.kind = .none ∧ t.out = [0xF4]) ∧
      (∃ t, step (codeState 255 [0x47]) = .next t ∧ t.fault.kind ≠ .none ∧ t.out = []) ∧
      (∃ t, step (codeState 255 [1]) = .next t ∧ t.fault.kind = .none ∧ t.out = []) :=
  ⟨⟨_, rfl, by decide⟩, ⟨_, rfl, by decide⟩, ⟨_, rfl, by decide⟩⟩

/-- A POP at the limit and at the last place it fits. -/
theorem witness_ReadyInstructionsStaySafe :
    (codeState 254 [0x46, 7]).dispatcher = .running ∧ decode (codeAt (codeState 254 [0x46, 7])) = .ok (.pop 7, []) ∧
      (Instr.pop 7).wellFormed = true ∧ stackReady (.pop 7) (codeState 254 [0x46, 7]) = true := by decide

theorem witness_OnlyHltWritesRunning :
    (∃ t, exec .hlt State.reset = .next t ∧ t.running = false) ∧
      (∃ t, step (codeState 255 [1]) = .next t ∧ t.running = false) :=
  ⟨⟨_, rfl, by decide⟩, ⟨_, rfl, by decide⟩⟩

theorem witness_PcMovesByTheAdvance :
    (∃ t, step (codeState 253 [0x82, 2, 7]) = .next t ∧ t.pc = 256) ∧
      (∃ t, step { State.reset with pc := 256 } = .next t ∧ t.fault.kind ≠ .none ∧ t.pc = 256) :=
  ⟨⟨_, rfl, by decide⟩, ⟨_, rfl, by decide⟩⟩

theorem witness_FaultsArePrecise :
    (∃ t, step State.reset = .next t ∧ t.fault.kind ≠ .none) ∧
      (∃ t, step { State.reset with pc := 256 } = .next t ∧ t.fault.kind ≠ .none) :=
  ⟨⟨_, rfl, by decide⟩, ⟨_, rfl, by decide⟩⟩

theorem witness_NoStepHaltsAndFaults :
    ∃ t, step (codeState 0 [1]) = .next t ∧ t.running = false ∧ t.fault.kind = .none := ⟨_, rfl, by decide⟩

theorem witness_MemoryReadsWhatWasWritten : (255 < 256) ∧ (255 ≤ 255) := by decide

theorem witness_MemoryFormIsCanonical :
    Memory.wf [(0, 1), (255, 2)] ∧ Memory.write (Memory.write [] 255 2) 0 1 = [(0, 1), (255, 2)] := by decide

theorem witness_reset_inv : Inv State.reset :=
  ⟨by decide, by decide, by decide, by decide, by decide, by decide, by decide, by decide⟩

/-- A reachable state with pc 256: the invariant holds there and the step faults. -/
theorem witness_StepKeepsTheInvariant :
    Inv { State.reset with pc := 256, phase := .started } ∧
      ∃ t, step { State.reset with pc := 256, phase := .started } = .next t :=
  ⟨⟨by decide, by decide, by decide, by decide, by decide, by decide, by decide, by decide⟩, _, rfl⟩

theorem witness_HostActionsKeepTheInvariant : Inv State.reset := witness_reset_inv

theorem witness_RunIsItsSteps : (∃ t, step State.reset = .next t) ∧ runBound ≤ 129 := ⟨⟨_, rfl⟩, by decide⟩

theorem witness_LoadFillsMemoryFromZero :
    Inv State.reset ∧ State.reset.phase = .fresh ∧ (List.replicate 256 300).length ≤ 256 :=
  ⟨witness_reset_inv, by decide, by rw [List.length_replicate]⟩

theorem witness_RefusedLoadsChangeNothing :
    256 < (List.replicate 257 1).length ∧ (load [1] State.reset).2.phase ≠ .fresh ∧
      (List.replicate 256 1).length ≤ 256 := by
  refine ⟨?_, by decide, ?_⟩ <;> rw [List.length_replicate]; decide

theorem witness_DebugPortReadsTheState : 255 ≤ 255 ∧ 255 < 256 := by decide

/-- A fault record with the largest pc and detail. -/
theorem witness_NineBitPortsLoseNothing :
    Inv { State.reset with
      pc := 256, phase := .started, fault := ⟨.outOfBounds, 256, none, .memory, 256⟩ } :=
  ⟨by decide, by decide, by decide, by decide, by decide, by decide, by decide, by decide⟩

end Sys2Proof.Tests
end

section
/-! SUPPORT. What a fetched instruction says about memory, what a step can do as a whole, and the effect of each
completing instruction as one equation. -/

namespace Sys2Proof.Machine

/-! ### The fetched bytes -/

@[simp] theorem fetch_start (s : State) : fetch s.start = fetch s := rfl

theorem encode_getElem?_zero (i : Instr) : (encode i)[0]? = some i.opcode.byte := by cases i <;> rfl

theorem encode_length (i : Instr) : (encode i).length = i.opcode.width := by cases i <;> rfl

/-- No instruction moves pc past its own bytes. -/
theorem advance_le_width (o : Opcode) : o.advance ≤ o.width := by cases o <;> decide

/-- The byte at pc of a fetched instruction is its opcode byte. -/
theorem fetch_opcode {s : State} {i : Instr} (h : fetch s = .ok i) :
    s.pc < 256 ∧ s.mem.read s.pc = i.opcode.byte :=
  fetch_ok h 0 _ (encode_getElem?_zero i)

theorem opcodeByte?_of_fetch {s : State} {i : Instr} (h : fetch s = .ok i) :
    s.opcodeByte? = some i.opcode.byte := by
  obtain ⟨hlt, hop⟩ := fetch_opcode h
  rw [opcodeByte?_of_lt hlt, hop]

/-- All bytes of a fetched instruction lie below 256, so its advance gives at most 256 (10_state.md R21). -/
theorem fetch_advance_le {s : State} {i : Instr} (h : fetch s = .ok i) : s.pc + i.opcode.advance ≤ 256 := by
  have hw : 0 < (encode i).length := by cases i <;> simp [encode]
  have hlast := (fetch_ok h ((encode i).length - 1) _ (List.getElem?_eq_getElem (by omega))).1
  have hadv := advance_le_width i.opcode
  rw [encode_length] at hw hlast
  omega

/-- Two entries of the opcode map with one byte are one entry. -/
theorem opcode_byte_injective : Function.Injective Opcode.byte := fun o p h => by
  have := congrArg Opcode.ofByte? h
  simpa using this

/-- Only PRN has PRN's opcode byte. -/
theorem eq_prn_of_opcode_byte {i : Instr} (h : i.opcode.byte = Opcode.byte .prn) : ∃ r, i = .prn r := by
  have ho := opcode_byte_injective h
  cases i with
  | prn r => exact ⟨r, rfl⟩
  | _ => cases ho

/-! ### What a step can do -/

/-- The causes a step can record: those of the fetch, and those of the fetched instruction. -/
def StepCause (s : State) (c : Cause) : Prop :=
  fetch s = .error c ∨ ∃ i, fetch s = .ok i ∧ CauseOf i s c

theorem raise_kind_ne_none (s : State) (op : Option Byte) (c : Cause) : (s.raise op c).fault.kind ≠ .none := by
  cases c <;> simp [Cause.kind]

/-- Everything a step can do: it starts in Running, and records a fault over the byte at pc and changes nothing but
the phase beside it, or completes the fetched instruction. -/
theorem step_outcome {s t : State} (h : step s = .next t) :
    (s.running = true ∧ s.fault.kind = .none) ∧
      ((∃ c, StepCause s c ∧ t = s.start.raise s.opcodeByte? c) ∨
        ∃ i, fetch s = .ok i ∧ exec i s.start = .next t ∧ Completed i s.start t) := by
  obtain ⟨hd, ⟨i, hf, he⟩ | ⟨c, hf, ht⟩⟩ := step_next h <;> rw [fetch_start] at hf <;>
    refine ⟨(dispatcher_running_iff s).mp hd, ?_⟩
  · obtain ⟨c, ht, hc⟩ | hcomp := exec_next he
    · rw [← opcodeByte?_of_fetch hf] at ht
      exact .inl ⟨c, .inr ⟨i, hf, hc⟩, ht⟩
    · exact .inr ⟨i, hf, he, hcomp⟩
  · exact .inl ⟨c, .inl hf, ht⟩

/-- Taken at the invariant's pc, every cause a step can record leaves a record the spec describes. -/
theorem faultDetailOk_of_stepCause {s : State} {c : Cause} (hc : StepCause s c) (hpc : s.pc ≤ 256) :
    faultDetailOk (s.start.raise s.opcodeByte? c) = true := by
  obtain hf | ⟨i, -, ⟨d, -, hd, rfl⟩ | ⟨r, -, h0, rfl⟩ | ⟨r, -, hl, rfl⟩⟩ := hc
  · obtain ⟨hge, rfl⟩ | ⟨hlt, hnone, rfl⟩ | ⟨-, -, rfl⟩ := fetch_error hf
    · have : s.pc = 256 := by omega
      simp [faultDetailOk, Cause.kind, Cause.space, Cause.detail, this]
    · simp [faultDetailOk, Cause.kind, Cause.space, Cause.detail, opcodeByte?_of_lt hlt, hnone]
    · simp [faultDetailOk, Cause.kind, Cause.space, Cause.detail]
  · have h8 : 8 ≤ d.toNat := hd
    have h255 : d.toNat ≤ 255 := Nat.le_of_lt_succ d.isLt
    simp [faultDetailOk, Cause.kind, Cause.space, Cause.detail, h8, h255]
  · simp [faultDetailOk, Cause.kind, Cause.space, Cause.detail, h0]
  · simp [faultDetailOk, Cause.kind, Cause.space, Cause.detail, hl]

/-! ### What completion leaves -/

theorem Completed.mem_wf {i : Instr} {s t : State} (h : Completed i s t) (hm : s.mem.wf) : t.mem.wf := by
  obtain e | ⟨r, v, -, hlt, e⟩ := h.mem
  · rwa [e]
  · rw [e]
    exact Memory.wf_write hm hlt v

/-- A byte of memory that a completed instruction changed is the one a PUSH wrote. -/
theorem Completed.push_of_read_ne {i : Instr} {s t : State} (h : Completed i s t) {a : Nat}
    (hne : t.mem.read a ≠ s.mem.read a) : ∃ r, i = .push r ∧ a = pushAddr s := by
  obtain e | ⟨r, v, hi, -, e⟩ := h.mem
  · exact absurd (by rw [e]) hne
  · refine ⟨r, hi, ?_⟩
    by_contra ha
    exact hne (by rw [e, Memory.read_write_of_ne _ _ _ _ (Ne.symm ha)])

/-- Each byte a completed instruction emits comes with an advance of 2 (40_execution_cycle.md R84). -/
theorem Completed.out_le {i : Instr} {s t : State} (h : Completed i s t) (ho : 2 * s.out.length ≤ s.pc) :
    2 * t.out.length ≤ t.pc := by
  rw [h.pc]
  obtain e | ⟨r, rfl, e⟩ := h.out
  · rw [e]; omega
  · have : (Instr.prn (regByte r)).opcode.advance = 2 := rfl
    rw [e, List.length_append, List.length_singleton]
    omega

/-- Only HLT leaves a running machine not running. -/
theorem Completed.hlt_of_stopped {i : Instr} {s t : State} (h : Completed i s t) (hr : s.running = true)
    (ht : t.running = false) : i = .hlt := by
  by_contra hi
  have := h.running
  rw [if_neg hi, hr, ht] at this
  exact absurd this (by decide)

end Sys2Proof.Machine

namespace Sys2Proof

open Machine

/-! ### The invariant -/

theorem Inv.fault_clear {s : State} (h : Inv s) (hk : s.fault.kind = .none) : s.fault = FaultStatus.clear := by
  simpa [faultDetailOk, hk] using h.detail

/-- A step that records a fault keeps the invariant. -/
theorem Inv.raise_start {s : State} {c : Cause} (h : Inv s) (hr : s.running = true) (hc : StepCause s c) :
    Inv (s.start.raise s.opcodeByte? c) where
  mem := h.mem
  pc := h.pc
  out := h.out
  detail := faultDetailOk_of_stepCause hc h.pc
  faulted _ := ⟨hr, rfl, rfl, rfl⟩
  halted hs := absurd (hr.symm.trans hs) (by decide)
  unstarted hp := absurd rfl hp
  fresh hp := nomatch hp

/-- A step that completes its instruction keeps the invariant. -/
theorem Inv.completed {i : Instr} {s t : State} (h : Inv s) (hr : s.running = true) (hk : s.fault.kind = .none)
    (hf : fetch s = .ok i) (hc : Completed i s.start t) : Inv t := by
  have hfault : t.fault = s.fault := hc.fault
  have hphase : t.phase = .started := hc.phase
  exact {
    mem := hc.mem_wf h.mem
    pc := hc.pc.trans_le (fetch_advance_le hf)
    out := hc.out_le h.out
    detail := by rw [faultDetailOk, hfault, h.fault_clear hk]; rfl
    faulted := fun hne => absurd (hfault ▸ hk) hne
    halted := fun hs => by
      obtain rfl := hc.hlt_of_stopped hr hs
      have hmem : t.mem = s.mem := by simpa using hc.mem
      have hpc : t.pc = s.pc := hc.pc
      have hop : t.opcodeByte? = s.opcodeByte? := by simp [State.opcodeByte?, memRead, hmem, hpc]
      exact ⟨hop.trans (opcodeByte?_of_fetch hf), hphase⟩
    unstarted := fun hp => absurd hphase hp
    fresh := fun hp => nomatch hp.symm.trans hphase }

theorem Inv.of_step {s t : State} (h : Inv s) (hs : step s = .next t) : Inv t := by
  obtain ⟨⟨hr, hk⟩, ⟨c, hc, rfl⟩ | ⟨i, hf, -, hc⟩⟩ := step_outcome hs
  · exact h.raise_start hr hc
  · exact h.completed hr hk hf hc

/-- Settles O42: by what a step can do: it records a fault, or completes its instruction. -/
theorem stepKeepsTheInvariant : Obligations.StepKeepsTheInvariant := fun _ _ h hs => h.of_step hs

end Sys2Proof
end

section
/-! SUPPORT. The invariant's bounds, and its statements. -/

namespace Sys2Proof

open Machine

theorem Inv.at_reset : Inv State.reset where
  mem := Memory.wf_nil
  pc := Nat.zero_le _
  out := Nat.le_refl _
  detail := rfl
  faulted h := absurd rfl h
  halted h := nomatch h
  unstarted _ := rfl
  fresh _ := rfl

/-- A record the spec describes has a detail of at most 256. -/
theorem detail_le_of_faultDetailOk {s : State} (h : faultDetailOk s = true) : s.fault.detail ≤ 256 := by
  unfold faultDetailOk at h
  cases hk : s.fault.kind <;> simp only [hk] at h
  case none =>
    have hclear : s.fault = FaultStatus.clear := by simpa using h
    exact hclear ▸ Nat.zero_le _
  case outOfBounds =>
    obtain ⟨-, hd⟩ | ⟨-, hd⟩ : _ ∨ _ := by simpa [and_assoc] using h
    all_goals omega
  case unknownInstruction =>
    cases ho : s.fault.opcode with
    | none => simp [ho] at h
    | some b =>
      obtain ⟨-, -, hd⟩ : _ ∧ _ ∧ s.fault.detail = b.toNat := by simpa [ho] using h
      omega
  case unsupportedAluOperation => exact absurd h (by decide)
  case stackOverflow =>
    obtain ⟨⟨-, hd⟩, -⟩ : (_ ∧ s.fault.detail = 0) ∧ _ := by simpa using h
    omega
  case stackUnderflow =>
    obtain ⟨⟨-, hd⟩, -⟩ : (_ ∧ s.fault.detail = s.sp.toNat) ∧ _ := by simpa using h
    omega

theorem Inv.fault_pc_le {s : State} (h : Inv s) : s.fault.pc ≤ 256 := by
  by_cases hk : s.fault.kind = .none
  · exact h.fault_clear hk ▸ Nat.zero_le _
  · obtain ⟨-, hpc, -, -⟩ := h.faulted hk
    exact hpc ▸ h.pc

theorem toNat_ofNat_nine {n : Nat} (h : n ≤ 256) : (BitVec.ofNat 9 n).toNat = n := by
  rw [BitVec.toNat_ofNat]
  exact Nat.mod_eq_of_lt (by omega)

/-- Settles O50: pc, fault.pc and fault.detail are all at most 256. -/
theorem nineBitPortsLoseNothing : Obligations.NineBitPortsLoseNothing := by
  intro s h
  have hpc := toNat_ofNat_nine h.pc
  have hfpc := toNat_ofNat_nine h.fault_pc_le
  have hdetail := toNat_ofNat_nine (detail_le_of_faultDetailOk h.detail)
  exact ⟨h.pc.trans_lt (by decide), hfpc, hdetail, ⟨_, rfl, hpc⟩, ⟨_, rfl, hfpc⟩, ⟨_, rfl, hdetail⟩⟩

/-- Settles O41: by the invariant at reset. -/
theorem resetMeetsTheInvariant : Obligations.ResetMeetsTheInvariant := ⟨Inv.at_reset, rfl⟩

/-- Settles O40: by evaluating the reset state, its registers one by one. -/
theorem resetGivesTheStatedValues : Obligations.ResetGivesTheStatedValues := by
  have hregs : ∀ j : Fin 8, j ≠ 7 → State.reset.reg j = 0 := by decide
  exact fun _ => ⟨fun _ _ => rfl, hregs, rfl, rfl, rfl, rfl, rfl, rfl⟩

/-- Settles O51: by the two code tables. -/
theorem faultCodesAreTheTables : Obligations.FaultCodesAreTheTables := by
  have hunused : ∀ k : FaultKind, k.code ≠ 6 ∧ k.code ≠ 7 := by intro k; cases k <;> decide
  exact ⟨rfl, rfl, rfl, rfl, rfl, rfl, hunused, rfl, rfl, rfl⟩

end Sys2Proof
end

section
/-! SUPPORT. The effect of each instruction on existing registers, and on a register that does not exist. -/

namespace Sys2Proof

open Machine

/-! ### Registers -/

/-- The only register a register write changes is its own. -/
theorem eq_of_reg_setReg_ne {s : State} {i j : Fin 8} {v : Nat} (h : (s.setReg i v).reg j ≠ s.reg j) : j = i := by
  by_contra hj
  exact h (State.reg_setReg_of_ne s i j v (Ne.symm hj))

theorem sp_setReg_of_ne (s : State) {i : Fin 8} (v : Nat) (h : i ≠ Config.spIndex) : (s.setReg i v).sp = s.sp :=
  State.reg_setReg_of_ne s i _ v h

theorem pushAddr_lt (s : State) : pushAddr s < 256 := (Nat.sub_le _ _).trans_lt s.sp.isLt

/-! ### Completion -/

theorem exec_ldi_regByte (s : State) (r : Fin 8) (imm : Byte) :
    exec (.ldi (regByte r) imm) s = .next ((s.setReg r imm.toNat).advance .ldi) := by
  simp only [exec, execLdi, regWrite_of_checkReg _ (checkReg_regByte r), immediate, retire_ok]

theorem exec_prn_regByte (s : State) (r : Fin 8) :
    exec (.prn (regByte r)) s = .next ((s.emit (s.reg r)).advance .prn) := by
  simp only [exec, execPrn, regRead_of_checkReg (checkReg_regByte r), bind, Except.bind, retire_ok]

theorem exec_mul_regByte (s : State) (a b : Fin 8) :
    exec (.mul (regByte a) (regByte b)) s =
      .next ((s.setReg a (aluResult .mul (s.reg a) (s.reg b)).toNat).advance .mul) := by
  simp only [exec, execMul, aluApply_ok .mul s (checkReg_regByte a) (checkReg_regByte b), retire_ok]

theorem exec_push_regByte {s : State} (r : Fin 8) (h : s.sp ≠ 0) :
    exec (.push (regByte r)) s =
      .next (State.advance { s.setSp (pushAddr s) with mem := s.mem.write (pushAddr s) (s.reg r) } .push) := by
  simp only [exec, execPush, regRead_of_checkReg (checkReg_regByte r), bind, Except.bind, pushByte_of_pos _ h,
    retire_ok]

theorem exec_pop_regByte {s : State} (r : Fin 8) (h : s.sp.toNat + 1 ≤ popLimit) :
    exec (.pop (regByte r)) s =
      .next (((s.setSp (s.sp.toNat + 1)).setReg r (s.mem.read (popAddr s)).toNat).advance .pop) := by
  simp only [exec, execPop, popInto_of_le (checkReg_regByte r) h, retire_ok]

/-- Settles O12: from the effect of LDI on an existing register. -/
theorem ldiStoresTheImmediate : Obligations.LdiStoresTheImmediate := by
  intro s r imm
  refine ⟨_, exec_ldi_regByte s r imm, ?_, fun j hj => ?_, fun _ => rfl, rfl, rfl, rfl, rfl, rfl⟩
  · simp
  · simp [hj.symm]

/-- Settles O13: from the effect of PRN on an existing register. -/
theorem prnEmitsTheRegister : Obligations.PrnEmitsTheRegister := fun s r =>
  ⟨_, exec_prn_regByte s r, rfl, fun _ => rfl, fun _ => rfl, rfl, rfl, rfl, rfl⟩

/-- Settles O15: from the effect of MUL on existing registers. -/
theorem mulMultipliesModulo256 : Obligations.MulMultipliesModulo256 := by
  intro s a b
  refine ⟨_, exec_mul_regByte s a b, ?_, fun j hj => ?_, fun _ => rfl, rfl, rfl, rfl, rfl, rfl⟩
  · simp [aluResult, AluOp.exact]
  · simp [hj.symm]

/-- Settles O16: from the effect of PUSH with SP not 0, whose address fits a byte. -/
theorem pushStoresTheOldValue : Obligations.PushStoresTheOldValue := by
  intro s r h
  have hsp : (wrap8 (pushAddr s)).toNat = pushAddr s := by
    rw [toNat_wrap8, Nat.mod_eq_of_lt (pushAddr_lt s)]
  have hnew : (s.setSp (pushAddr s)).sp.toNat = pushAddr s := by rw [State.sp_setSp, hsp]
  refine ⟨_, exec_push_regByte r h, hnew, hnew.symm, ?_, fun a ha => ?_, fun j hj => ?_, rfl, rfl, rfl, rfl, rfl⟩
  · simp
  · simp [ha.symm]
  · exact State.reg_setSp_of_ne s j _ hj.symm

/-- Settles O17: from the effect of POP within the limit; SP + 1 fits a byte. -/
theorem popLoadsFromTheStack : Obligations.PopLoadsFromTheStack := by
  intro s r h
  have hlimit : s.sp.toNat + 1 ≤ popLimit := Nat.succ_le_succ h
  refine ⟨_, exec_pop_regByte r hlimit, ?_, fun hr => ?_, fun j hj hsp => ?_, fun _ => rfl, rfl, rfl, rfl, rfl, rfl⟩
  · simp [popAddr]
  · rw [State.advance_sp, sp_setReg_of_ne _ _ hr, State.sp_setSp, toNat_wrap8]
    omega
  · simp [hj.symm, hsp.symm]

/-! ### Registers that do not exist -/

/-- The first register operand above 7, in operand order, is the fault (10_state.md R13; 40_execution_cycle.md R85). -/
theorem exec_of_bad_register {i : Instr} {d : Byte} (s : State)
    (h : i.regOperands.find? (fun b => decide (7 < b.toNat)) = some d) :
    exec i s = .next (s.raise (some i.opcode.byte) (.outOfBounds .register d.toNat)) := by
  have hd : 7 < d.toNat := by simpa using List.find?_some h
  have hmem := List.mem_of_find?_eq_some h
  cases i with
  | ldi r imm =>
    obtain rfl : d = r := by simpa [Instr.regOperands] using hmem
    obtain ⟨rf, hv, -⟩ | ⟨-, e⟩ := exec_ldi_cases d imm s
    · omega
    · exact e
  | prn r =>
    obtain rfl : d = r := by simpa [Instr.regOperands] using hmem
    obtain ⟨rf, hv, -⟩ | ⟨-, e⟩ := exec_prn_cases d s
    · omega
    · exact e
  | hlt => simp [Instr.regOperands] at hmem
  | mul a b =>
    obtain ⟨ra, rb, ha, hb, -⟩ | ⟨ha, e⟩ | ⟨ha, hb, e⟩ := exec_mul_cases a b s
    · have : d = a ∨ d = b := by simpa [Instr.regOperands] using hmem
      obtain rfl | rfl := this <;> omega
    · obtain rfl : a = d := by simpa [Instr.regOperands, ha] using h
      exact e
    · obtain rfl : b = d := by simpa [Instr.regOperands, Nat.not_lt.mpr ha, hb] using h
      exact e
  | push r =>
    obtain rfl : d = r := by simpa [Instr.regOperands] using hmem
    obtain ⟨rf, hv, -⟩ | ⟨-, e⟩ | ⟨hle, -⟩ := exec_push_cases d s
    · omega
    · exact e
    · omega
  | pop r =>
    obtain rfl : d = r := by simpa [Instr.regOperands] using hmem
    obtain ⟨rf, hv, -⟩ | ⟨-, e⟩ | ⟨hle, -⟩ := exec_pop_cases d s
    · omega
    · exact e
    · omega

/-- A well-formed instruction raises nothing about a register. -/
theorem space_of_causeOf {i : Instr} {s : State} {c : Cause} (hc : CauseOf i s c) (hw : i.wellFormed = true) :
    c.space = .none := by
  obtain ⟨d, hd, hgt, -⟩ | ⟨_, -, -, rfl⟩ | ⟨_, -, -, rfl⟩ := hc
  · have : d.toNat ≤ 7 := by simpa [validReg] using List.all_eq_true.mp hw d hd
    omega
  · rfl
  · rfl

/-- Settles O18: the fault by `exec_of_bad_register`, its absence by the causes of a well-formed instruction. -/
theorem registerIndexAbove7Faults : Obligations.RegisterIndexAbove7Faults := by
  refine ⟨fun i s d h => exec_of_bad_register s h, fun i s t hw h hs => ?_⟩
  obtain ⟨c, rfl, hc⟩ | hc := exec_next h
  · simp [space_of_causeOf hc hw]
  · rwa [hc.fault]

end Sys2Proof
end

section
/-! SUPPORT. What no instruction and no step does beside its row of the tables. -/

namespace Sys2Proof

open Machine

/-- An instruction has one outcome. -/
theorem exec_next_unique {i : Instr} {s t u : State} (ht : exec i s = .next t) (hu : exec i s = .next u) : t = u := by
  simpa using ht.symm.trans hu

/-- No handler raises `UnknownInstruction`. -/
theorem kind_of_causeOf {i : Instr} {s : State} {c : Cause} (hc : CauseOf i s c) : c.kind ≠ .unknownInstruction := by
  obtain ⟨_, -, -, rfl⟩ | ⟨_, -, -, rfl⟩ | ⟨_, -, -, rfl⟩ := hc <;> simp [Cause.kind]

/-- Settles O8: the fetch by the closed opcode map, the handlers by their causes. -/
theorem unknownOpcodeFaults : Obligations.UnknownOpcodeFaults := by
  refine ⟨fun s hd hpc hop => ?_, fun i s t h hk => ?_⟩
  · have hlt : s.pc < 256 := Nat.lt_succ_of_le hpc
    have hfetch := fetch_of_unknown hlt ((Opcode.ofByte?_eq_none_iff _).mpr hop)
    rw [step_fetch_fault hd hfetch, opcodeByte?_of_lt hlt]
    rfl
  · obtain ⟨c, rfl, hc⟩ | hc := exec_next h
    · exact kind_of_causeOf hc
    · rwa [hc.fault]

/-- Settles O30: by the outcomes of each instruction. -/
theorem registersWrittenByInstruction : Obligations.RegistersWrittenByInstruction := by
  intro i s t j h hne
  cases i with
  | ldi r imm =>
    obtain ⟨rf, hv, e⟩ | ⟨-, e⟩ := exec_ldi_cases r imm s <;> obtain rfl := exec_next_unique h e
    · exact eq_of_reg_setReg_ne hne ▸ hv
    · exact absurd rfl hne
  | prn r =>
    obtain ⟨rf, -, e⟩ | ⟨-, e⟩ := exec_prn_cases r s <;> obtain rfl := exec_next_unique h e <;> exact hne rfl
  | hlt =>
    obtain rfl := exec_next_unique h (exec_hlt_eq s)
    exact hne rfl
  | mul a b =>
    obtain ⟨ra, rb, ha, -, e⟩ | ⟨-, e⟩ | ⟨-, -, e⟩ := exec_mul_cases a b s <;>
      obtain rfl := exec_next_unique h e
    · exact eq_of_reg_setReg_ne hne ▸ ha
    · exact absurd rfl hne
    · exact absurd rfl hne
  | push r =>
    obtain ⟨rf, -, -, e⟩ | ⟨-, e⟩ | ⟨-, -, e⟩ := exec_push_cases r s <;> obtain rfl := exec_next_unique h e
    · exact eq_of_reg_setReg_ne hne
    · exact absurd rfl hne
    · exact absurd rfl hne
  | pop r =>
    obtain ⟨rf, hv, -, e⟩ | ⟨-, e⟩ | ⟨-, -, e⟩ := exec_pop_cases r s <;> obtain rfl := exec_next_unique h e
    · by_cases hj : j = rf
      · exact .inr (hj ▸ hv)
      · rw [State.advance_reg, State.reg_setReg_of_ne _ _ _ _ (Ne.symm hj)] at hne
        exact .inl (eq_of_reg_setReg_ne hne)
    · exact absurd rfl hne
    · exact absurd rfl hne

/-- Settles O31: by what a completed instruction leaves of memory. -/
theorem onlyPushWritesMemory : Obligations.OnlyPushWritesMemory := by
  refine ⟨fun i s t a h hne => ?_, fun s t a h hne => ?_⟩
  · obtain ⟨c, rfl, -⟩ | hc := exec_next h
    · exact absurd rfl hne
    · exact hc.push_of_read_ne hne
  · obtain ⟨-, ⟨c, -, rfl⟩ | ⟨i, hf, -, hc⟩⟩ := step_outcome h
    · exact absurd rfl hne
    · obtain ⟨r, rfl, ha⟩ := hc.push_of_read_ne hne
      exact ⟨(fetch_opcode hf).2, ha⟩

/-- Settles O32: by the outcomes of PRN and what completion leaves of the output. -/
theorem onlyPrnWritesOutput : Obligations.OnlyPrnWritesOutput := by
  refine ⟨fun i s t h hi => ?_, fun r s t h => ?_, fun s t h => ?_⟩
  · obtain ⟨c, rfl, -⟩ | hc := exec_next h
    · rfl
    · obtain e | ⟨r, hr, -⟩ := hc.out
      · exact e
      · exact absurd hr (hi _)
  · obtain ⟨rf, hv, e⟩ | ⟨hgt, e⟩ := exec_prn_cases r s <;> obtain rfl := exec_next_unique h e
    · rw [if_pos (by omega)]
      exact ⟨rf, eq_regByte hv, rfl⟩
    · rw [if_neg (by omega)]
      rfl
  · obtain ⟨⟨-, hk⟩, ⟨c, -, rfl⟩ | ⟨i, hf, he, hc⟩⟩ := step_outcome h
    · rw [if_neg fun hn => raise_kind_ne_none _ _ _ hn.1]
      rfl
    · split
      · next hprn =>
        obtain ⟨r, rfl⟩ := eq_prn_of_opcode_byte ((fetch_opcode hf).2.symm.trans hprn.2)
        obtain ⟨rf, hv, e⟩ | ⟨-, e⟩ := exec_prn_cases r s.start <;> obtain rfl := exec_next_unique he e
        · exact ⟨rf, (fetch_ok hf 1 r rfl).2.trans (eq_regByte hv), rfl⟩
        · exact absurd hprn.1 (raise_kind_ne_none _ _ _)
      · next hprn =>
        obtain e | ⟨r, rfl, -⟩ := hc.out
        · exact e
        · exact absurd ⟨hc.fault ▸ hk, (fetch_opcode hf).2⟩ hprn

/-- Settles O34: by what a step can do, and the rows of the opcode table. -/
theorem pcMovesByTheAdvance : Obligations.PcMovesByTheAdvance := by
  intro s t h
  obtain ⟨⟨-, hk⟩, ⟨c, -, rfl⟩ | ⟨i, hf, -, hc⟩⟩ := step_outcome h
  · exact .inl ⟨raise_kind_ne_none _ _ _, rfl⟩
  · have hop := (fetch_opcode hf).2
    have hpc : t.pc = s.pc + i.opcode.advance := hc.pc
    refine .inr ⟨hc.fault ▸ hk, ?_⟩
    rw [hop, hpc]
    cases i.opcode <;> simp [Opcode.byte, Opcode.advance]

/-- Settles O36: only a completed instruction stops the machine, and it keeps the fault status. -/
theorem noStepHaltsAndFaults : Obligations.NoStepHaltsAndFaults := by
  intro s t h
  obtain ⟨⟨hr, hk⟩, ⟨c, -, rfl⟩ | ⟨i, -, -, hc⟩⟩ := step_outcome h
  · exact .inl hr
  · exact .inr (hc.fault ▸ hk)

end Sys2Proof
end

section
/-! SUPPORT. Memory as a whole, and the host's load. -/

namespace Sys2Proof

open Machine

/-- A memory in canonical form lists nothing above address 255. -/
theorem read_of_wf_of_ge {m : Memory} (h : m.wf) {a : Nat} (ha : 256 ≤ a) : m.read a = 0 :=
  Memory.read_of_unlisted fun c hc e => by
    have : c.1 < 256 := (h.2 c hc).1
    omega

/-- Settles O38: by the laws of read and write. -/
theorem memoryReadsWhatWasWritten : Obligations.MemoryReadsWhatWasWritten := by
  refine fun s a v => ⟨fun h => ⟨memRead_of_ge s h, memWrite_of_ge s v h⟩, fun h => ?_⟩
  have hlt : a < 256 := Nat.lt_succ_of_le h
  refine ⟨⟨_, memRead_of_lt s hlt⟩, _, memWrite_of_lt s v hlt, ?_, fun b hb => ?_, rfl⟩
  · rw [memRead_of_lt _ hlt, Memory.read_write_self]
    rfl
  · simp only [memRead, Memory.read_write_of_ne _ _ _ _ hb.symm]

/-- Settles O39: the two lists have the same entries, and both rise strictly. -/
theorem memoryFormIsCanonical : Obligations.MemoryFormIsCanonical := by
  intro m n hm hn h
  have hread : ∀ a, m.read a = n.read a := fun a => by
    by_cases ha : a ≤ 255
    · exact h a ha
    · rw [read_of_wf_of_ge hm (by omega), read_of_wf_of_ge hn (by omega)]
  have hirrefl : Std.Irrefl fun c d : Host.Cell => c.1 < d.1 := ⟨fun c => Nat.lt_irrefl c.1⟩
  have hantisymm : Std.Antisymm fun c d : Host.Cell => c.1 < d.1 := ⟨fun _ _ h h' => absurd h' (Nat.lt_asymm h)⟩
  exact hm.1.eq_of_mem_iff hn.1 fun c =>
    ⟨Memory.mem_of_read_eq hm hread, Memory.mem_of_read_eq hn fun a => (hread a).symm⟩

/-- A load in phase Fresh of an image that fits is accepted (60_exceptions.md R172). -/
theorem load_fresh {s : State} {bytes : List Nat} (hp : s.phase = .fresh) (hl : bytes.length ≤ 256) :
    load bytes s =
      (.accepted, { s with mem := Memory.store s.mem Config.loadBase (bytes.map wrap8), phase := .loaded }) := by
  have hfit : ¬ Config.memSize < bytes.length := Nat.not_lt.mpr hl
  rw [load, if_neg hfit, if_neg (not_not_intro hp)]

/-- A store from address 0 into the empty memory reads as the image and 0 past it. -/
theorem read_store_nil {bs : List Byte} (h : bs.length ≤ 256) (k : Nat) :
    (Memory.store [] Config.loadBase bs).read k = bs[k]?.getD 0 := by
  by_cases hk : k < 256
  · rw [Memory.read_store _ _ _ _ hk, if_pos (show Config.loadBase ≤ k from Nat.zero_le k)]
    rfl
  · rw [read_of_wf_of_ge (Memory.wf_store Memory.wf_nil _ _) (by omega), List.getElem?_eq_none (by omega)]
    rfl

/-- Settles O46: by reading a store into the empty memory. -/
theorem loadFillsMemoryFromZero : Obligations.LoadFillsMemoryFromZero := by
  intro s bytes h hp hl
  have hread := read_store_nil (bs := bytes.map wrap8) (by simpa using hl)
  rw [load_fresh hp hl, h.fresh hp]
  refine ⟨rfl, fun k hk => ?_, fun k hk => ?_, rfl⟩
  · rw [hread, List.getElem?_eq_getElem (by simpa using hk), List.getElem_map]
    rfl
  · rw [hread, List.getElem?_eq_none (by simpa using hk)]
    rfl

end Sys2Proof
end

section
/-! SUPPORT. A step over given bytes of memory, and a store that the next fetch sees. -/

namespace Sys2Proof

open Machine

/-! ### Fetching from given bytes -/

theorem fetch_hlt {s : State} (hpc : s.pc < 256) (hop : s.mem.read s.pc = Opcode.byte .hlt) :
    fetch s = .ok .hlt := by
  refine fetch_of_bytes .hlt fun k b hb => ?_
  match k with
  | 0 =>
    cases hb
    exact ⟨hpc, hop⟩
  | k + 1 => simp [encode] at hb

theorem fetch_push {s : State} {r : Byte} (hpc : s.pc + 1 < 256) (hop : s.mem.read s.pc = Opcode.byte .push)
    (hr : s.mem.read (s.pc + 1) = r) : fetch s = .ok (.push r) := by
  refine fetch_of_bytes (.push r) fun k b hb => ?_
  match k with
  | 0 =>
    cases hb
    exact ⟨Nat.lt_of_succ_lt hpc, hop⟩
  | 1 =>
    cases hb
    exact ⟨hpc, hr⟩
  | k + 2 => simp [encode] at hb

/-- In Running, a HLT byte at pc halts the machine there (41_load_print_halt.md R102). -/
theorem step_hlt {s : State} (hd : s.dispatcher = .running) (hpc : s.pc < 256)
    (hop : s.mem.read s.pc = Opcode.byte .hlt) :
    ∃ u, step s = .next u ∧ u.dispatcher = .halted ∧ u.pc = s.pc := by
  refine ⟨s.start.stop.advance .hlt, ?_, ?_, rfl⟩
  · rw [step_fetched hd (fetch_start s ▸ fetch_hlt hpc hop), exec_hlt_eq]
  · have hfault : s.fault.kind = .none := ((dispatcher_running_iff s).mp hd).2
    simp [State.dispatcher, hfault]

/-- Settles O29: the PUSH leaves HLT's byte at the new pc and the machine in Running, so the next step fetches it. -/
theorem pushedHltIsFetched : Obligations.PushedHltIsFetched := by
  intro s r hd hpc hop hr hsp hval
  have hsp0 : s.start.sp ≠ 0 := fun h => by simp [show s.sp = 0 from h] at hsp
  obtain ⟨t, hexec, -, -, hread, -, -, htpc, hrun, hfault, -, -⟩ := pushStoresTheOldValue s.start r hsp0
  have hstep : step s = .next t := by
    rw [step_fetched hd (fetch_start s ▸ fetch_push (by omega) hop hr), hexec]
  have haddr : pushAddr s.start = t.pc := by
    rw [htpc, pushAddr, State.start_sp, State.start_pc, hsp]
    rfl
  have hhlt : t.mem.read t.pc = Opcode.byte .hlt := by
    rw [← haddr, hread]
    exact hval
  have htd : t.dispatcher = .running := by
    rw [dispatcher_running_iff, hrun, hfault]
    exact (dispatcher_running_iff s).mp hd
  obtain ⟨u, hu, hhalted, hupc⟩ := step_hlt htd (htpc.trans_lt (Nat.lt_succ_of_le hpc)) hhlt
  exact ⟨t, u, hstep, hu, hhalted, hupc.trans htpc⟩

end Sys2Proof
end

section
/-! SUPPORT. The decoder of byte lists: what it accepts, what it rejects by name and where it is cut off; and the faults
of the fetch that follow. -/

namespace Sys2Proof

open Machine

/-! ### Lists of bytes as a source -/

theorem readList_of_ge {bs : List Byte} {k : Nat} (h : bs.length ≤ k) : readList bs k = .error (.truncated k) := by
  simp [readList, List.getElem?_eq_none h]

theorem readList_of_lt {bs : List Byte} {k : Nat} (h : k < bs.length) : ∃ b, readList bs k = .ok b :=
  ⟨_, readList_of_some (List.getElem?_eq_getElem h)⟩

/-- A list decodes to an instruction iff it begins with the instruction's bytes. -/
theorem decodeWith_readList_ok_iff {bs : List Byte} {i : Instr} :
    decodeWith (readList bs) .unknownOpcode = .ok i ↔ encode i <+: bs := by
  rw [List.prefix_iff_getElem?]
  constructor
  · intro h k hk
    exact readList_ok_iff.mp (decodeWith_ok h k _ (List.getElem?_eq_getElem hk))
  · intro h
    refine decodeWith_of_bytes i fun k b hb => ?_
    obtain ⟨hk, rfl⟩ := List.getElem?_eq_some_iff.mp hb
    exact readList_of_some (h k hk)

/-! ### Decode through the byte source -/

theorem decode_ok_iff_decodeWith {bs rest : List Byte} {i : Instr} :
    decode bs = .ok (i, rest) ↔
      decodeWith (readList bs) .unknownOpcode = .ok i ∧ bs.drop i.opcode.width = rest := by
  unfold decode
  cases decodeWith (readList bs) .unknownOpcode with
  | error e => simp
  | ok j =>
    simp only [Except.ok.injEq, Prod.mk.injEq, and_congr_right_iff]
    rintro rfl
    rfl

theorem decode_error {bs : List Byte} {e : DecodeError} (h : decodeWith (readList bs) .unknownOpcode = .error e) :
    decode bs = .error e := by
  simp [decode, h]

/-- Decode and encode are inverse: a list decodes to an instruction and a rest iff it is that instruction's encoding
followed by that rest (30_encoding.md R61, R69). -/
theorem decode_ok_iff {bs rest : List Byte} {i : Instr} :
    decode bs = .ok (i, rest) ↔ encode i ++ rest = bs := by
  rw [decode_ok_iff_decodeWith, decodeWith_readList_ok_iff]
  constructor
  · rintro ⟨⟨tail, rfl⟩, hrest⟩
    rw [← encode_length, List.drop_left] at hrest
    rw [hrest]
  · rintro rfl
    exact ⟨List.prefix_append _ _, by rw [← encode_length, List.drop_left]⟩

/-- Settles O1: one direction of `decode_ok_iff`. -/
theorem decodeGivesBackEncoded : Obligations.DecodeGivesBackEncoded := fun _ _ => decode_ok_iff.mpr rfl

/-- Settles O2: the other direction of `decode_ok_iff`. -/
theorem decodedBytesAreTheEncoding : Obligations.DecodedBytesAreTheEncoding := fun _ _ _ => decode_ok_iff.mp

/-! ### The opcode byte decides -/

theorem width_le_three (o : Opcode) : o.width ≤ 3 := by cases o <;> decide

/-- An opcode byte of the map with all bytes of its width decodes to an instruction of that entry. -/
theorem decode_of_width_le {o : Opcode} {rest : List Byte} (h : o.width ≤ rest.length + 1) :
    ∃ i, i.opcode = o ∧ decode (o.byte :: rest) = .ok (i, rest.drop (o.width - 1)) := by
  obtain ⟨i, rfl, hi⟩ := decodeWith_of_width (read := readList (o.byte :: rest)) (unknown := .unknownOpcode)
    rfl (Opcode.ofByte?_byte o) fun k hk => readList_of_lt (hk.trans_le h)
  refine ⟨i, rfl, decode_ok_iff_decodeWith.mpr ⟨hi, ?_⟩⟩
  cases i <;> rfl

/-- An opcode byte of the map with fewer bytes than its width is cut off where the list ends. -/
theorem decode_of_lt_width {o : Opcode} {rest : List Byte} (h : rest.length + 1 < o.width) :
    decode (o.byte :: rest) = .error (.truncated (rest.length + 1)) := by
  have hw := width_le_three o
  refine decode_error ?_
  match rest with
  | [] => exact decodeWith_error_one rfl (Opcode.ofByte?_byte o) h rfl
  | [_] => exact decodeWith_error_two rfl (Opcode.ofByte?_byte o) h rfl rfl
  | _ :: _ :: _ =>
    simp only [List.length_cons] at h
    omega

/-- Settles O4: by the two lemmas on the length of the list. -/
theorem lengthIsTheOpcodesOwn : Obligations.LengthIsTheOpcodesOwn := fun _ _ =>
  ⟨decode_of_width_le, decode_of_lt_width⟩

/-- An opcode byte of the map is never rejected as unknown, whatever follows it. -/
theorem decode_byte_ne_unknown (o : Opcode) (rest : List Byte) :
    decode (o.byte :: rest) ≠ .error (.unknownOpcode o.byte) := by
  obtain h | h := Nat.lt_or_ge (rest.length + 1) o.width
  · simp [decode_of_lt_width h]
  · obtain ⟨i, -, hi⟩ := decode_of_width_le h
    simp [hi]

/-- Settles O3: a byte with no entry is rejected before anything else is read, a byte with one never is. -/
theorem unknownOpcodesAreAllOthers : Obligations.UnknownOpcodesAreAllOthers := by
  intro op rest
  rw [← Opcode.ofByte?_eq_none_iff]
  constructor
  · intro h
    cases ho : Opcode.ofByte? op with
    | none => rfl
    | some o =>
      obtain rfl := Opcode.byte_of_ofByte? ho
      exact absurd h (decode_byte_ne_unknown o rest)
  · intro h
    exact decode_error (decodeWith_unknown rfl h)

/-- Settles O5: each word is the encoding of its instruction. -/
theorem sampleEncodingsDecode : Obligations.SampleEncodingsDecode :=
  ⟨decode_ok_iff.mpr rfl, decode_ok_iff.mpr rfl, decode_ok_iff.mpr rfl, decode_ok_iff.mpr rfl,
    decode_ok_iff.mpr rfl, decode_ok_iff.mpr rfl⟩

/-! ### Faults of the fetch -/

/-- Settles O9: the fetch overruns memory before any operand is looked at. -/
theorem operandFetchAbove255Faults : Obligations.OperandFetchAbove255Faults := by
  intro s o hd hpc hop hover
  have hlt : s.pc < 256 := Nat.lt_succ_of_le hpc
  have hentry : Opcode.ofByte? (s.mem.read s.pc) = some o := hop ▸ Opcode.ofByte?_byte o
  have hfetch : fetch s.start = .error (.outOfBounds .memory 256) := fetch_of_overrun hlt hover hentry
  rw [step_fetch_fault hd hfetch, opcodeByte?_of_lt hlt, hop]
  rfl

/-- In Faulted a run takes no step, whatever its bound (40_execution_cycle.md R81). -/
theorem runLoop_of_faulted {s : State} (h : s.dispatcher = .faulted) (n : Nat) : runLoop n s = s := by
  cases n with
  | zero => rfl
  | succ n => simp [runLoop, step, cycle, h]

/-- A run whose first step faults ends there and reports the fault (60_exceptions.md R172). -/
theorem run_of_step_faults {s t : State} (hs : step s.start = .next t) (ht : t.dispatcher = .faulted) :
    run s = (.faulted t.fault, t) := by
  have hloop : runLoop runBound s.start = t := by
    rw [runBound, runLoop, hs]
    exact runLoop_of_faulted ht _
  simp [run, hloop, runResult, ht]

/-- Settles O48: the empty memory reads as 0x00, which has no entry, so the first step faults. -/
theorem runWithoutLoadFaults : Obligations.RunWithoutLoadFaults :=
  have hunknown := unknownOpcodeFaults.1 State.reset.start rfl (Nat.zero_le _) (by decide)
  run_of_step_faults hunknown rfl

end Sys2Proof
end

section
/-! SUPPORT. The execution cycle: where a step exists and what it runs, and why every run ends (40_execution_cycle.md). -/

namespace Sys2Proof

open Machine

/-! ### One step -/

theorem step_of_running {s : State} (h : s.dispatcher = .running) : ∃ t, step s = .next t := by
  cases hf : fetch s.start with
  | ok i =>
    rw [step_fetched h hf]
    exact exec_completes i _
  | error c => exact ⟨_, step_fetch_fault h hf⟩

theorem step_of_halted {s : State} (h : s.dispatcher = .halted) : step s = .fault .halted := by
  simp [step, cycle, h]

theorem step_of_faulted {s : State} (h : s.dispatcher = .faulted) : step s = .fault .faulted := by
  simp [step, cycle, h]

/-- The step sets the phase itself, so a phase set before it makes no difference (log entry 2). -/
@[simp] theorem step_start (s : State) : step s.start = step s := rfl

theorem start_eq_self {s : State} (h : s.phase = .started) : s.start = s := by
  rw [State.start, ← h]

theorem phase_of_step {s t : State} (h : step s = .next t) : t.phase = .started := by
  obtain ⟨-, ⟨c, -, rfl⟩ | ⟨i, -, -, hc⟩⟩ := step_outcome h
  · rfl
  · exact hc.phase

/-- The bytes from pc up are those of memory below 256. -/
theorem codeAt_getElem?_eq_some_iff {s : State} {k : Nat} {b : Byte} :
    (codeAt s)[k]? = some b ↔ s.pc + k < 256 ∧ s.mem.read (s.pc + k) = b := by
  by_cases hlt : s.pc + k < 256
  · simp [codeAt_getElem? s k hlt, hlt]
  · have hnone : (codeAt s)[k]? = none := by
      rw [List.getElem?_eq_none_iff, codeAt, List.length_map, List.length_range]
      omega
    simp [hnone, hlt]

/-- What the bytes at pc decode to is what the fetch gives. -/
theorem fetch_of_decode {s : State} {i : Instr} {rest : List Byte} (h : decode (codeAt s) = .ok (i, rest)) :
    fetch s = .ok i := by
  refine fetch_of_bytes i fun k b hb => codeAt_getElem?_eq_some_iff.mp ?_
  obtain ⟨hk, -⟩ := List.getElem?_eq_some_iff.mp hb
  rw [← decode_ok_iff.mp h, List.getElem?_append_left hk, hb]

/-- Settles O6: decoder and fetch agree, and the step runs what it fetched. -/
theorem stepRunsTheDecodedInstruction : Obligations.StepRunsTheDecodedInstruction :=
  fun s _ _ hd h => step_fetched hd (fetch_start s ▸ fetch_of_decode h)

/-- Settles O7: by the fetch above 255, whose record has no opcode byte. -/
theorem opcodeFetchAbove255Faults : Obligations.OpcodeFetchAbove255Faults := by
  refine ⟨fun s hd hpc => ?_, fun s hpc => memRead_of_lt s (Nat.lt_succ_of_le hpc)⟩
  have hfetch : fetch s.start = .error (.outOfBounds .memory s.pc) := fetch_of_ge hpc
  rw [step_fetch_fault hd hfetch, opcodeByte?_of_ge hpc]
  rfl

/-- Settles O14: HLT's advance is 0, so only the running flag changes. -/
theorem hltClearsRunning : Obligations.HltClearsRunning :=
  fun s => ⟨_, exec_hlt_eq s, rfl, fun hk => by simp [State.dispatcher, hk]⟩

/-- Settles O10: a step that answers a next state starts in Running, and from there fetch and instruction always
answer one. -/
theorem stepsExistExactlyInRunning : Obligations.StepsExistExactlyInRunning := by
  intro s
  rw [← dispatcher_running_iff]
  exact ⟨fun ⟨_, h⟩ => (step_next h).1, step_of_running⟩

/-! ### The steps of a run -/

theorem runLoop_of_step {s t : State} (h : step s = .next t) (n : Nat) : runLoop (n + 1) s = runLoop n t := by
  simp [runLoop, h]

theorem runLoop_of_step_fault {s : State} {r : Fault} (h : step s = .fault r) (n : Nat) : runLoop n s = s := by
  cases n with
  | zero => rfl
  | succ n => simp [runLoop, h]

/-- Outside Running a run takes no step, whatever its bound (40_execution_cycle.md R81). -/
theorem runLoop_of_not_running {s : State} (h : s.dispatcher ≠ .running) (n : Nat) : runLoop n s = s := by
  cases hd : s.dispatcher with
  | running => exact absurd hd h
  | halted => exact runLoop_of_step_fault (step_of_halted hd) n
  | faulted => exact runLoop_of_faulted hd n

/-- Settles O11: by the step's two named stops. -/
theorem terminalStatesStay : Obligations.TerminalStatesStay := fun _ n =>
  ⟨fun h => ⟨step_of_halted h, runLoop_of_step_fault (step_of_halted h) n⟩,
    fun h => ⟨step_of_faulted h, runLoop_of_faulted h n⟩⟩

theorem runLoop_add (m n : Nat) (s : State) : runLoop (m + n) s = runLoop n (runLoop m s) := by
  induction m generalizing s with
  | zero => rw [Nat.zero_add, runLoop]
  | succ m ih =>
    by_cases hd : s.dispatcher = .running
    · obtain ⟨t, hs⟩ := step_of_running hd
      rw [Nat.add_right_comm, runLoop_of_step hs, runLoop_of_step hs, ih]
    · simp only [runLoop_of_not_running hd]

/-! ### Every run ends (40_execution_cycle.md R89) -/

/-- Every opcode but HLT moves pc by at least 2 (30_encoding.md R64). -/
theorem two_le_advance {i : Instr} (h : i ≠ .hlt) : 2 ≤ i.opcode.advance := by
  cases i with
  | hlt => exact absurd rfl h
  | _ => simp [Instr.opcode, Opcode.advance]

/-- A step that leaves the machine in Running moved pc up by at least 2, and not past 256. -/
theorem pc_of_step_running {s t : State} (h : step s = .next t) (hd : t.dispatcher = .running) :
    s.pc + 2 ≤ t.pc ∧ t.pc ≤ 256 := by
  obtain ⟨hr, hk⟩ := (dispatcher_running_iff t).mp hd
  obtain ⟨-, ⟨c, -, rfl⟩ | ⟨i, hf, -, hc⟩⟩ := step_outcome h
  · exact absurd hk (raise_kind_ne_none _ _ _)
  · have hi : i ≠ .hlt := fun hi => by simp [hc.running, hi] at hr
    have hpc : t.pc = s.pc + i.opcode.advance := hc.pc
    rw [hpc]
    exact ⟨Nat.add_le_add_left (two_le_advance hi) _, fetch_advance_le hf⟩

/-- A bound on the steps a state's run still takes: those that leave the machine in Running move pc up by at least 2
and not past 256, and one more step ends the run. -/
def stepsLeft (s : State) : Nat := if s.dispatcher = .running then (256 - s.pc) / 2 + 1 else 0

theorem stepsLeft_le_runBound (s : State) : stepsLeft s ≤ runBound := by
  unfold stepsLeft runBound
  split <;> omega

theorem stepsLeft_lt_of_step {s t : State} (h : step s = .next t) : stepsLeft t < stepsLeft s := by
  have hs : stepsLeft s = (256 - s.pc) / 2 + 1 := if_pos (step_next h).1
  by_cases hd : t.dispatcher = .running
  · have ht : stepsLeft t = (256 - t.pc) / 2 + 1 := if_pos hd
    obtain ⟨hup, hle⟩ := pc_of_step_running h hd
    omega
  · have ht : stepsLeft t = 0 := if_neg hd
    omega

/-- Given as many steps as it has left, a run ends outside Running. -/
theorem dispatcher_runLoop_ne {n : Nat} {s : State} (h : stepsLeft s ≤ n) : (runLoop n s).dispatcher ≠ .running := by
  induction n generalizing s with
  | zero =>
    intro hd
    have : stepsLeft s = (256 - s.pc) / 2 + 1 := if_pos hd
    omega
  | succ n ih =>
    by_cases hd : s.dispatcher = .running
    · obtain ⟨t, hs⟩ := step_of_running hd
      rw [runLoop_of_step hs]
      exact ih (Nat.le_of_lt_succ ((stepsLeft_lt_of_step hs).trans_le h))
    · rwa [runLoop_of_not_running hd]

theorem dispatcher_runLoop_runBound_ne (s : State) : (runLoop runBound s).dispatcher ≠ .running :=
  dispatcher_runLoop_ne (stepsLeft_le_runBound s)

/-- Settles O44: `stepsLeft` falls with every step and is at most 129 at first, so the run ends outside Running. -/
theorem everyRunEnds : Obligations.EveryRunEnds := by
  refine fun s => ⟨rfl, ?_⟩
  have hfst : (run s).1 = runResult (run s).2 := rfl
  rw [hfst, runResult]
  cases hd : (run s).2.dispatcher with
  | running => exact absurd hd (dispatcher_runLoop_runBound_ne s.start)
  | halted => exact .inl ⟨rfl, rfl⟩
  | faulted => exact .inr ⟨rfl, rfl⟩

/-- Every step bound from 129 up gives the same run. -/
theorem runLoop_of_runBound_le {n : Nat} (h : runBound ≤ n) (s : State) : runLoop n s = runLoop runBound s := by
  obtain ⟨k, rfl⟩ := Nat.exists_eq_add_of_le h
  rw [runLoop_add, runLoop_of_not_running (dispatcher_runLoop_runBound_ne s)]

/-- The run of a state that steps is the run of the state it steps to (40_execution_cycle.md R88). -/
theorem run_of_step {s t : State} (h : step s = .next t) : run s = run t := by
  have hloop : runLoop runBound s.start = runLoop runBound t.start := by
    calc runLoop runBound s.start
      _ = runLoop (runBound + 1) s.start := (runLoop_of_runBound_le (Nat.le_succ _) _).symm
      _ = runLoop runBound t := runLoop_of_step ((step_start s).trans h) _
      _ = runLoop runBound t.start := by rw [start_eq_self (phase_of_step h)]
  simp only [run, hloop]

/-- Settles O45: the run has ended within the bound, so one step more or a larger bound adds nothing to it. -/
theorem runIsItsSteps : Obligations.RunIsItsSteps :=
  fun s _ h => ⟨run_of_step h, fun _ hn => runLoop_of_runBound_le hn s.start⟩

end Sys2Proof
end

section
/-! SUPPORT. LDI followed by PRN, and the writer of the running flag (41_load_print_halt.md). -/

namespace Sys2Proof

open Machine

/-- Settles O28: PRN emits the register in the state that LDI left, where it holds the immediate. -/
theorem prnAfterLdiEmitsTheImmediate : Obligations.PrnAfterLdiEmitsTheImmediate := by
  intro s r imm
  have hvalue : ((s.setReg r imm.toNat).advance .ldi).reg r = imm := by simp
  refine ⟨_, _, exec_ldi_regByte s r imm, exec_prn_regByte _ r, ?_⟩
  rw [State.advance_out, State.emit_out, hvalue]
  rfl

/-- Settles O33: a fault leaves the flag, and so does every completed instruction but HLT; a step starts with the flag
set. -/
theorem onlyHltWritesRunning : Obligations.OnlyHltWritesRunning := by
  refine ⟨fun i s t h => ?_, fun s t h => ?_⟩
  · obtain ⟨c, rfl, -⟩ | hc := exec_next h
    · exact .inl rfl
    · by_cases hi : i = .hlt
      · exact .inr ⟨hi, by rw [hc.running, if_pos hi]⟩
      · exact .inl (by rw [hc.running, if_neg hi])
  · obtain ⟨⟨hr, -⟩, ⟨c, -, rfl⟩ | ⟨i, hf, -, hc⟩⟩ := step_outcome h
    · exact .inl hr
    · cases ht : t.running with
      | true => exact .inl rfl
      | false =>
        obtain rfl := hc.hlt_of_stopped hr ht
        exact .inr ⟨rfl, (fetch_opcode hf).2⟩

end Sys2Proof
end

section
/-! SUPPORT. The ALU block as arithmetic on bytes, its contract and its unsupported tags, and the fault kinds of each
instruction (42_alu.md; 60_exceptions.md R160). -/

namespace Sys2Proof

open Machine

/-! ### Results -/

theorem toNat_aluResult (op : AluOp) (va vb : Byte) :
    (aluResult op va vb).toNat = op.exact va.toNat vb.toNat % 256 :=
  toNat_wrap8 _

theorem aluResult_add (va vb : Byte) : aluResult .add va vb = va + vb :=
  BitVec.eq_of_toNat_eq (by rw [toNat_aluResult, BitVec.toNat_add]; rfl)

theorem aluResult_mul (va vb : Byte) : aluResult .mul va vb = va * vb :=
  BitVec.eq_of_toNat_eq (by rw [toNat_aluResult, BitVec.toNat_mul]; rfl)

/-- Settles O23: a result is the exact one modulo 256. -/
theorem aluResultsAreModulo256 : Obligations.AluResultsAreModulo256 := fun va vb =>
  ⟨toNat_aluResult .add va vb, toNat_aluResult .mul va vb⟩

/-- Settles O26: the ALU's operations are addition and multiplication of bytes, where these laws hold. -/
theorem aluArithmeticLaws : Obligations.AluArithmeticLaws := by
  intro a b c
  simp only [aluResult_add, aluResult_mul]
  exact ⟨BitVec.add_comm a b, BitVec.mul_comm a b, BitVec.add_assoc a b c, BitVec.mul_assoc a b c, BitVec.mul_add,
    BitVec.add_zero a, BitVec.mul_one a⟩

/-! ### The contract (42_alu.md R120, R121, R123) -/

/-- A supported tag on two registers: the exact result modulo 256 goes to the first, and nothing else changes. -/
theorem aluApply_regByte (op : AluOp) (s : State) (a b : Fin 8) :
    ∃ t, aluApply op.tag (regByte a) (regByte b) s = .ok t ∧
      (t.reg a).toNat = op.exact (s.reg a).toNat (s.reg b).toNat % 256 ∧
      (∀ j, j ≠ a → t.reg j = s.reg j) ∧ t = { s with x := t.x } := by
  refine ⟨_, aluApply_ok op s (checkReg_regByte a) (checkReg_regByte b), ?_, fun j hj => ?_, rfl⟩
  · rw [State.reg_setReg_self, wrap8_toNat, toNat_aluResult]
  · exact State.reg_setReg_of_ne s a j _ hj.symm

/-- Settles O24: the contract, for the tag of ADD and for that of MUL. -/
theorem aluWritesOnlyRegisterA : Obligations.AluWritesOnlyRegisterA := fun s a b =>
  ⟨aluApply_regByte .add s a b, aluApply_regByte .mul s a b⟩

theorem ofTag_of_unsupported {tag : BitVec 2} (h : tag = 0b10 ∨ tag = 0b11) :
    AluOp.ofTag tag = .error (.unsupportedAluOperation tag) := by
  obtain rfl | rfl := h <;> rfl

/-- An unsupported tag is refused whatever the operand bytes are (log entry 4). -/
theorem aluApply_of_unsupported {tag : BitVec 2} (a b : Byte) (s : State) (h : tag = 0b10 ∨ tag = 0b11) :
    aluApply tag a b s = .error (.unsupportedAluOperation tag) := by
  simp only [aluApply, ofTag_of_unsupported h, bind, Except.bind]

/-- Settles O25: the ALU refuses the tag, and the end of the instruction records that cause. -/
theorem unsupportedAluTagsFault : Obligations.UnsupportedAluTagsFault := by
  intro s a b tag op h
  rw [aluApply_of_unsupported a b s h, retire_error]
  rfl

/-! ### Fault kinds -/

/-- Settles O22: an instruction completes and keeps the fault status, or takes one of its causes: a register operand
above 7, which HLT has none of, or the stack fault of PUSH or of POP. -/
theorem faultKindsByInstruction : Obligations.FaultKindsByInstruction := by
  intro i s t _ h
  obtain ⟨c, rfl, ⟨d, hd, -, rfl⟩ | ⟨r, rfl, -, rfl⟩ | ⟨r, rfl, -, rfl⟩⟩ | hc := exec_next h
  · cases i with
    | hlt => cases hd
    | ldi _ _ | prn _ | mul _ _ => exact .inr ⟨rfl, rfl⟩
    | push _ | pop _ => exact .inr (.inl ⟨rfl, rfl⟩)
  · exact .inr (.inr rfl)
  · exact .inr (.inr rfl)
  · cases i with
    | hlt => exact hc.fault
    | _ => exact .inl hc.fault

end Sys2Proof
end

section
/-! SUPPORT. The stack faults of PUSH and POP of an existing register, and PUSH followed by POP (43_stack.md). -/

namespace Sys2Proof

open Machine

/-! ### The stack faults -/

theorem exec_push_regByte_of_zero {s : State} (r : Fin 8) (h : s.sp = 0) :
    exec (.push (regByte r)) s = .next (s.raise (some (Opcode.byte .push)) (.stackOverflow s.sp)) := by
  simp only [exec, execPush, regRead_of_checkReg (checkReg_regByte r), bind, Except.bind, pushByte_of_zero _ h,
    retire_error]

theorem exec_pop_regByte_of_gt {s : State} (r : Fin 8) (h : popLimit < s.sp.toNat + 1) :
    exec (.pop (regByte r)) s = .next (s.raise (some (Opcode.byte .pop)) (.stackUnderflow s.sp)) := by
  simp only [exec, execPop, popInto_of_gt (checkReg_regByte r) h, retire_error]

/-- Under every limit, a pop into an existing register underflows exactly when SP + 1 exceeds it (43_stack.md R144). -/
theorem popInto_underflow_iff (limit : Nat) (s : State) (r : Fin 8) :
    popInto limit (regByte r) s = .error (.stackUnderflow s.sp) ↔ limit < s.sp.toNat + 1 := by
  refine ⟨fun h => ?_, popInto_of_gt (checkReg_regByte r)⟩
  by_contra hle
  rw [popInto_of_le (checkReg_regByte r) (Nat.not_lt.mp hle)] at h
  cases h

/-- Settles O19: from the effect of PUSH with SP = 0, whose recorded detail is SP. -/
theorem pushAtZeroOverflows : Obligations.PushAtZeroOverflows := by
  intro s r h
  rw [exec_push_regByte_of_zero r h, h]
  rfl

/-- Settles O20: above 0xF4 from the effect of POP beyond the limit, at 0xF4 from what POP loads within it, under every
legal limit by `popInto_underflow_iff`. -/
theorem popAboveLimitUnderflows : Obligations.PopAboveLimitUnderflows := by
  refine ⟨rfl, fun s r h => ?_, fun s r h => ?_, fun limit s r _ _ => popInto_underflow_iff limit s r⟩
  · exact exec_pop_regByte_of_gt r (Nat.succ_lt_succ h)
  · have hsp : s.sp.toNat = 0xF4 := by rw [h]; rfl
    obtain ⟨t, ht, hload, hmoved, -⟩ := popLoadsFromTheStack s r hsp.le
    refine ⟨t, ht, hsp ▸ hload, fun hr => BitVec.eq_of_toNat_eq ?_⟩
    rw [hmoved hr, hsp]
    rfl

/-- Settles O21: PUSH and POP of an existing register complete and keep the fault status, or take their stack fault. -/
theorem stackAccessesStayInMemory : Obligations.StackAccessesStayInMemory := by
  refine fun s t r => ⟨fun h => ?_, fun h => ?_⟩
  · by_cases h0 : s.sp = 0
    · obtain rfl := exec_next_unique h (exec_push_regByte_of_zero r h0)
      exact .inr rfl
    · obtain rfl := exec_next_unique h (exec_push_regByte r h0)
      exact .inl rfl
  · by_cases hl : s.sp.toNat + 1 ≤ popLimit
    · obtain rfl := exec_next_unique h (exec_pop_regByte r hl)
      exact .inl rfl
    · obtain rfl := exec_next_unique h (exec_pop_regByte_of_gt r (Nat.lt_of_not_le hl))
      exact .inr rfl

/-! ### PUSH followed by POP -/

/-- Settles O27: POP reads the address PUSH wrote, and moves SP back up by the 1 that PUSH moved it down. -/
theorem pushThenPopRestores : Obligations.PushThenPopRestores := by
  intro s r h1 hlimit
  have hlimit : s.sp.toNat ≤ 0xF5 := hlimit
  have h0 : s.sp ≠ 0 := fun h => by simp [h] at h1
  obtain ⟨t, ht, htsp, haddr, hstored, -, htregs, -, -, htfault, -⟩ := pushStoresTheOldValue s r h0
  obtain ⟨u, hu, hloaded, husp, huregs, -, -, -, hufault, -⟩ := popLoadsFromTheStack t r (by omega)
  have hr : u.reg r = s.reg r := by rw [hloaded, ← haddr, hstored]
  have hregs : ∀ j, u.reg j = s.reg j := by
    intro j
    by_cases hj : j = r
    · exact hj ▸ hr
    · by_cases hjsp : j = Config.spIndex
      · subst hjsp
        have hup : u.sp.toNat = s.sp.toNat := by rw [husp (Ne.symm hj), htsp]; omega
        exact BitVec.eq_of_toNat_eq hup
      · rw [huregs j hj hjsp, htregs j hjsp]
  exact ⟨t, u, ht, hu, hr, hregs Config.spIndex, hregs, hufault.trans htfault⟩

end Sys2Proof
end

section
/-! SUPPORT. A fault's record, the host's actions on the invariant, refused loads and the debug read port
(60_exceptions.md). -/

namespace Sys2Proof

open Machine

/-! ### Refused loads (60_exceptions.md R172) -/

theorem load_of_too_long {bytes : List Nat} (s : State) (h : 256 < bytes.length) :
    load bytes s = (.outOfBounds 256, s) := by
  have hlong : Config.memSize < bytes.length := h
  rw [load, if_pos hlong]
  rfl

theorem load_of_not_fresh {s : State} {bytes : List Nat} (hp : s.phase ≠ .fresh) (hl : bytes.length ≤ 256) :
    load bytes s = (.alreadyLoaded, s) := by
  have hfit : ¬ Config.memSize < bytes.length := Nat.not_lt.mpr hl
  rw [load, if_neg hfit, if_pos hp]

/-- Settles O47: by the two refusals of load. -/
theorem refusedLoadsChangeNothing : Obligations.RefusedLoadsChangeNothing := fun s _ =>
  ⟨load_of_too_long s, load_of_not_fresh⟩

/-! ### The invariant under the host's actions (60_exceptions.md R173) -/

/-- A machine that differs from reset only in a canonical memory and in being Loaded meets the invariant. -/
theorem Inv.of_loaded {m : Memory} (h : m.wf) : Inv { State.reset with mem := m, phase := .loaded } where
  mem := h
  pc := Nat.zero_le _
  out := Nat.le_refl _
  detail := rfl
  faulted hk := absurd rfl hk
  halted hr := nomatch hr
  unstarted _ := rfl
  fresh hp := nomatch hp

/-- A Fresh machine is the reset machine (10_state.md R28, R31). -/
theorem Inv.eq_reset {s : State} (h : Inv s) (hp : s.phase = .fresh) : s = State.reset := by
  have hs := h.unstarted (hp ▸ nofun)
  rwa [h.fresh hp, hp] at hs

theorem Inv.load {s : State} (h : Inv s) (bytes : List Nat) : Inv (load bytes s).2 := by
  by_cases hl : bytes.length ≤ 256
  · by_cases hp : s.phase = .fresh
    · rw [load_fresh hp hl, h.eq_reset hp]
      exact Inv.of_loaded (Memory.wf_store Memory.wf_nil _ _)
    · rwa [load_of_not_fresh hp hl]
  · rwa [load_of_too_long s (Nat.lt_of_not_le hl)]

/-- The start of a run keeps the invariant: where a fault or a halt is recorded the phase is Started already. -/
theorem Inv.start {s : State} (h : Inv s) : Inv s.start where
  mem := h.mem
  pc := h.pc
  out := h.out
  detail := h.detail
  faulted hk := by
    obtain ⟨hr, hpc, hop, -⟩ := h.faulted hk
    exact ⟨hr, hpc, hop, rfl⟩
  halted hr := ⟨(h.halted hr).1, rfl⟩
  unstarted hp := absurd rfl hp
  fresh hp := nomatch hp

/-- Steps in a row keep the invariant, since one step does. -/
theorem Inv.runLoop {s : State} (h : Inv s) (n : Nat) : Inv (runLoop n s) := by
  induction n generalizing s with
  | zero => exact h
  | succ n ih =>
    by_cases hd : s.dispatcher = .running
    · obtain ⟨t, hs⟩ := step_of_running hd
      rw [runLoop_of_step hs]
      exact ih (h.of_step hs)
    · rwa [runLoop_of_not_running hd]

/-- Settles O43: the invariant holds at reset; a load, the start of a run and each of its steps keep it; a debug read
leaves the state as it is. -/
theorem hostActionsKeepTheInvariant : Obligations.HostActionsKeepTheInvariant := by
  intro a s h
  cases a with
  | reset => exact Inv.at_reset
  | load bytes => exact h.load bytes
  | run => exact h.start.runLoop runBound
  | debugRead sel => exact h

/-! ### Taking a fault (60_exceptions.md R163) -/

theorem opcodeByte?_eq (s : State) : s.opcodeByte? = if s.pc ≤ 255 then some (s.mem.read s.pc) else none := by
  split
  · next h => exact opcodeByte?_of_lt (Nat.lt_succ_of_le h)
  · next h => exact opcodeByte?_of_ge (Nat.lt_of_not_le h)

/-- Settles O35: a step that records a fault is the started state with a cause raised over the byte at pc; a completed
instruction keeps the fault status, which was clear. -/
theorem faultsArePrecise : Obligations.FaultsArePrecise := by
  intro s t h hk
  obtain ⟨⟨-, hnone⟩, ⟨c, -, rfl⟩ | ⟨i, -, -, hc⟩⟩ := step_outcome h
  · exact ⟨rfl, rfl, opcodeByte?_eq s⟩
  · exact absurd (hc.fault ▸ hnone) hk

/-! ### The debug read port (60_exceptions.md R176, R178) -/

theorem debugRead_mem_of_lt (s : State) {a : Nat} (h : a < 256) :
    debugRead (.mem a) s = .value ((s.mem.read a).setWidth 9) := by
  rw [debugRead, memRead_of_lt s h]

theorem debugRead_mem_of_ge (s : State) {a : Nat} (h : 256 ≤ a) : debugRead (.mem a) s = .outOfBounds a := by
  rw [debugRead, memRead_of_ge s h]

/-- Settles O49: by the port's rows; a row narrower than nine bits is its number on nine bits. -/
theorem debugPortReadsTheState : Obligations.DebugPortReadsTheState := by
  intro s
  simp only [BitVec.ofNat_toNat]
  refine ⟨rfl, ?_, rfl, rfl, ?_, rfl, rfl, fun _ => rfl, fun a ha => debugRead_mem_of_lt s (Nat.lt_succ_of_le ha),
    fun a ha => debugRead_mem_of_ge s ha, fun _ => rfl⟩
  · rw [debugRead]
    cases s.running <;> rfl
  · rw [debugRead]
    cases s.fault.opcode <;> rfl

end Sys2Proof
end

section
/-! SUPPORT. What an instruction needs to complete without a fault (70_reset_and_hazards.md R193). -/

namespace Sys2Proof

open Machine

/-- A well-formed instruction on a stack ready for it has nothing to raise. -/
theorem not_causeOf_of_ready {i : Instr} {s : State} {c : Cause} (hw : i.wellFormed = true)
    (hready : stackReady i s = true) : ¬ CauseOf i s c := by
  intro hc
  have hspace := space_of_causeOf hc hw
  obtain ⟨_, -, -, rfl⟩ | ⟨r, rfl, hzero, -⟩ | ⟨r, rfl, hover, -⟩ := hc
  · exact nomatch hspace
  · simp [stackReady, hzero] at hready
  · have hle : s.sp.toNat + 1 ≤ popLimit := by simpa [stackReady] using hready
    omega

/-- A well-formed instruction on a stack ready for it completes. -/
theorem exec_completed_of_ready {i : Instr} {s : State} (hw : i.wellFormed = true)
    (hready : stackReady i s = true) : ∃ t, exec i s = .next t ∧ Completed i s t := by
  obtain ⟨t, ht⟩ := exec_completes i s
  obtain ⟨c, -, hc⟩ | hdone := exec_next ht
  · exact absurd hc (not_causeOf_of_ready hw hready)
  · exact ⟨t, ht, hdone⟩

/-- A state is safe iff no fault is recorded in it. -/
theorem safe_iff (s : State) : Safe s ↔ s.fault.kind = .none := by
  unfold Safe State.dispatcher
  by_cases hk : s.fault.kind = .none
  · cases hr : s.running <;> simp [hk]
  · simp [hk]

/-- Settles O37: the decoded instruction completes on the started state, which keeps the fault status clear, and only
HLT clears the running flag. -/
theorem readyInstructionsStaySafe : Obligations.ReadyInstructionsStaySafe := by
  intro s i rest hd hdec hw hready
  obtain ⟨hrun, hnone⟩ := (dispatcher_running_iff s).mp hd
  obtain ⟨t, hexec, hdone⟩ := exec_completed_of_ready (s := s.start) hw hready
  have hstep : step s = .next t := (stepRunsTheDecodedInstruction s i rest hd hdec).trans hexec
  have hclear : t.fault.kind = .none := hdone.fault ▸ hnone
  refine ⟨t, hstep, (safe_iff t).mpr hclear, fun hi => (dispatcher_running_iff t).mpr ⟨?_, hclear⟩⟩
  rw [hdone.running, if_neg hi]
  exact hrun

end Sys2Proof
end
